-- ==== Sys2Proof/Word.lean ====
section
/-! DEFINITION. The machine word: every register, the pc, an immediate and an origin_pc is one 32-bit
two's-complement word (00_scope.md R5 and R7, 10_state.md R21 and R25; the width is the spec's decision D1). -/

namespace Sys2Proof

/-- A word, `XLEN = 32` bits (R5). `+` and `-` of `BitVec` wrap modulo 2^32, as R7 asks;
`BitVec.toInt` is the signed reading in [-2^31, 2^31-1]. -/
abbrev Word := BitVec 32

end Sys2Proof
end

