-- ==== Sys2Proof/Syntax.lean ====
section
/-! DEFINITION. The syntax of instructions: the opcode set (R2, R72), register fields with the marker ABSENT
(R7), the decoded template that is an entry of PROG (R76), and the in-flight instruction record (R30),
`Instr`, with one constructor per row of spec/opcode_table.json. Also the names under which text and
stage-register words are rejected (R71, R73, R75, R82). -/

namespace Sys2Proof

/-- The closed set of opcodes: five and the no-op marker UNKNOWN (R2, R72). -/
inductive Opcode where
  | jal
  | bne
  | add
  | sub
  | swap
  | unknown
deriving DecidableEq, Repr

/-- A register index, 0 to 31 (R21). -/
abbrev RegIx := Fin 32

/-- A register field: an index, or `none`, which is the marker ABSENT (R7). `valid(r)` is `r.isSome`. -/
abbrev RegField := Option RegIx

/-- An entry of PROG: the decoded template of one text line (R40, R76). -/
structure Template where
  opcode : Opcode
  rd : RegField
  rs1 : RegField
  rs2 : RegField
  imm : Word
deriving DecidableEq, Repr

/-- An instruction in flight: the immutable record of R30. The constructor is the opcode; every record has the
same further fields: `core_id`, the fetching core; `origin_pc`, the pc at which it was fetched; the register
fields `rd`, `rs1`, `rs2`, decoded for every opcode (R76); and `imm`. -/
inductive Instr where
  /-- JAL (R103). -/
  | jal (coreId : Nat) (originPc : Word) (rd rs1 rs2 : RegField) (imm : Word)
  /-- BNE (R104). -/
  | bne (coreId : Nat) (originPc : Word) (rd rs1 rs2 : RegField) (imm : Word)
  /-- ADD (R105). -/
  | add (coreId : Nat) (originPc : Word) (rd rs1 rs2 : RegField) (imm : Word)
  /-- SUB (R106). -/
  | sub (coreId : Nat) (originPc : Word) (rd rs1 rs2 : RegField) (imm : Word)
  /-- SWAP (R107). -/
  | swap (coreId : Nat) (originPc : Word) (rd rs1 rs2 : RegField) (imm : Word)
  /-- UNKNOWN, the decoded form of any other opcode token (R108). -/
  | unknown (coreId : Nat) (originPc : Word) (rd rs1 rs2 : RegField) (imm : Word)
deriving DecidableEq, Repr

/-- Builds a record from its fields (R30, R31). -/
def Instr.ofFields (op : Opcode) (coreId : Nat) (originPc : Word) (rd rs1 rs2 : RegField) (imm : Word) : Instr :=
  match op with
  | .jal => .jal coreId originPc rd rs1 rs2 imm
  | .bne => .bne coreId originPc rd rs1 rs2 imm
  | .add => .add coreId originPc rd rs1 rs2 imm
  | .sub => .sub coreId originPc rd rs1 rs2 imm
  | .swap => .swap coreId originPc rd rs1 rs2 imm
  | .unknown => .unknown coreId originPc rd rs1 rs2 imm

/-- The record's opcode (R30). -/
def Instr.opcode : Instr → Opcode
  | .jal .. => .jal
  | .bne .. => .bne
  | .add .. => .add
  | .sub .. => .sub
  | .swap .. => .swap
  | .unknown .. => .unknown

/-- The record's `core_id` (R30). -/
def Instr.coreId : Instr → Nat
  | .jal c _ _ _ _ _ => c
  | .bne c _ _ _ _ _ => c
  | .add c _ _ _ _ _ => c
  | .sub c _ _ _ _ _ => c
  | .swap c _ _ _ _ _ => c
  | .unknown c _ _ _ _ _ => c

/-- The record's `origin_pc` (R30). -/
def Instr.originPc : Instr → Word
  | .jal _ o _ _ _ _ => o
  | .bne _ o _ _ _ _ => o
  | .add _ o _ _ _ _ => o
  | .sub _ o _ _ _ _ => o
  | .swap _ o _ _ _ _ => o
  | .unknown _ o _ _ _ _ => o

/-- The record's `rd` field (R30), which the HazardUnit takes as its destination whatever the opcode (R133). -/
def Instr.rd : Instr → RegField
  | .jal _ _ r _ _ _ => r
  | .bne _ _ r _ _ _ => r
  | .add _ _ r _ _ _ => r
  | .sub _ _ r _ _ _ => r
  | .swap _ _ r _ _ _ => r
  | .unknown _ _ r _ _ _ => r

/-- The record's `rs1` field (R30). -/
def Instr.rs1 : Instr → RegField
  | .jal _ _ _ r _ _ => r
  | .bne _ _ _ r _ _ => r
  | .add _ _ _ r _ _ => r
  | .sub _ _ _ r _ _ => r
  | .swap _ _ _ r _ _ => r
  | .unknown _ _ _ r _ _ => r

/-- The record's `rs2` field (R30). -/
def Instr.rs2 : Instr → RegField
  | .jal _ _ _ _ r _ => r
  | .bne _ _ _ _ r _ => r
  | .add _ _ _ _ r _ => r
  | .sub _ _ _ _ r _ => r
  | .swap _ _ _ _ r _ => r
  | .unknown _ _ _ _ r _ => r

/-- The record's `imm` field (R30). -/
def Instr.imm : Instr → Word
  | .jal _ _ _ _ _ v => v
  | .bne _ _ _ _ _ v => v
  | .add _ _ _ _ _ v => v
  | .sub _ _ _ _ _ v => v
  | .swap _ _ _ _ _ v => v
  | .unknown _ _ _ _ _ v => v

/-- The part of a record that comes from its PROG entry (R31). -/
def Instr.template (i : Instr) : Template :=
  { opcode := i.opcode, rd := i.rd, rs1 := i.rs1, rs2 := i.rs2, imm := i.imm }

/-- The record with other source-register fields: the one rewrite the ForwardingUnit makes (R32, R136). -/
def Instr.withSources (i : Instr) (rs1 rs2 : RegField) : Instr :=
  .ofFields i.opcode i.coreId i.originPc i.rd rs1 rs2 i.imm

/-- Why the model's transcriber refuses a program line (R71, R73, R75; 60_exceptions.md R184 (d)). Each is a refusal
of the model and not of the hardware, and is safe: the model gives such text no meaning. -/
inductive TextRefusal where
  /-- A line that contains a comma (R71). -/
  | comma
  /-- A line that contains a comment marker (R71). -/
  | commentMarker
  /-- A line with more than four tokens (R71); the number of tokens. -/
  | tooManyTokens (n : Nat)
  /-- An opcode token that differs from a known one in letter case only (R73). -/
  | caseVariant (op : Opcode)
  /-- An immediate outside [-2^31, 2^31-1] (R75). -/
  | immOutOfRange (v : Int)
deriving DecidableEq, Repr

/-- Why a word is no occupied or empty stage register (R82). -/
inductive DecodeError where
  /-- Opcode bits 101 or 110, which never occur (R82). -/
  | reservedOpcode (code : Nat)
  /-- A core id that is not in 0..NUM_CORES-1 (R27). -/
  | coreOutOfRange (c : Nat)
  /-- An occupied execute slot whose latency counter is 0; the counter is a positive integer (R33). -/
  | zeroLatency
deriving DecidableEq, Repr

end Sys2Proof
end

