-- ==== Sys2Proof/Config.lean ====
section
/-! DEFINITION. What is fixed for a whole run (00_scope.md R5): the constants NREGS and STEP, the latency table
LAT (R38) and the record of the run's parameters. The parameters that the spec leaves OPEN (NUM_CORES, PROG, FWD,
DMEM_SIZE, DMEM_INIT; 92_eei_decisions.md D20 to D23) are arguments here: nothing in this file picks a value for
them. The spec leaves no value of an instruction undefined, so no free value (no opaque constant) is needed. -/

namespace Sys2Proof

namespace Config

/-- Pc increment per fetch and default Executor increment, `STEP` (R5; 90_conflicts.md C9). -/
def stepSize : Word := 4

end Config

/-- The latency table LAT: the execute latency of each of the five known opcodes (R38).
UNKNOWN has no entry (R6). -/
structure LatTable where
  jal : Nat
  bne : Nat
  add : Nat
  sub : Nat
  swap : Nat
deriving DecidableEq, Repr

/-- "defaults to 1 cycle for every known opcode" (R38). -/
def LatTable.default : LatTable := { jal := 1, bne := 1, add := 1, sub := 1, swap := 1 }

/-- The parameters of a run (R5), as the environment supplies them before it (R202). -/
structure Params where
  /-- NUM_CORES. -/
  numCores : Nat
  /-- PROG, the shared instruction list. -/
  prog : List Template
  /-- LAT. -/
  lat : LatTable
  /-- FWD, the forwarding toggle. -/
  fwd : Bool
  /-- DMEM_INIT; its length is DMEM_SIZE. -/
  dmemInit : List Int
deriving DecidableEq, Repr

/-- DESIGN CHOICE, unsafe (log 1): the parameters of the state the model calls `State.reset`: one core, no
program, the default latencies, forwarding off, no data memory. These are the values 95_test_vectors.md uses "unless
a vector says otherwise"; the spec leaves NUM_CORES, FWD, PROG and DMEM open. -/
def Params.standard : Params :=
  { numCores := 1, prog := [], lat := .default, fwd := false, dmemInit := [] }

end Sys2Proof
end

