-- ==== Sys2Proof/WellFormed.lean ====
section
/-! DEFINITION. Well-formedness: of an in-flight record (R27), of a latency table and of a run's parameters (R6, R184
(c)), and of a template as something a program line can give (R76). All are decidable. -/

namespace Sys2Proof

/-- A record is well-formed for a block of `numCores` cores when its `core_id` is a core (R27, R30). Its other fields
are well-formed by their types. -/
abbrev Instr.WellFormed (numCores : Nat) (i : Instr) : Prop := i.coreId < numCores

/-- Every latency is at least 1 (R6, R38). -/
abbrev LatTable.WellFormed (l : LatTable) : Prop :=
  1 ≤ l.jal ∧ 1 ≤ l.bne ∧ 1 ≤ l.add ∧ 1 ≤ l.sub ∧ 1 ≤ l.swap

/-- A run's parameters that the model does not refuse (R184 (c)). -/
abbrev Params.WellFormed (p : Params) : Prop := 1 ≤ p.numCores ∧ p.lat.WellFormed

/-- A template that some program line gives (R76): JAL shares its second operand token between `rs1` and `imm`, BNE its
third between `rs2` and `imm`, and a token that names a register parses to the immediate 0 (R75); the other opcodes
have `imm` 0. -/
abbrev Template.Textual (t : Template) : Prop :=
  (t.opcode = .jal → t.rs1 = none ∨ t.imm = 0) ∧ (t.opcode = .bne → t.rs2 = none ∨ t.imm = 0) ∧
    (t.opcode ≠ .jal → t.opcode ≠ .bne → t.imm = 0)

end Sys2Proof
end

