-- ==== Sys2Proof/Decode.lean ====
section
/-! DEFINITION. The two encodings of the spec, each with its decoder and its encoder.

1. TEXT (R70 to R80): a program line to a template, refusing by name what the transcriber refuses, and the canonical
   line of a template.
2. STAGE REGISTER (R82): the bits of a stage register to the slot's contents and back. This is the only layout of bits
   the spec gives; no rule of the hardware observes it.

Both decoders are total. -/

namespace Sys2Proof

/-! ## Text: tokens -/

/-- Cuts a text at every character that satisfies `p`; the pieces hold no such character. -/
def cutAt (p : Char → Bool) : List Char → List (List Char)
  | [] => [[]]
  | c :: cs =>
    if p c then [] :: cutAt p cs
    else
      match cutAt p cs with
      | [] => [[c]]
      | t :: ts => (c :: t) :: ts

/-- White space (R71 names no characters). DESIGN CHOICE (log 6): blank, tab, line feed, vertical tab, form feed and
carriage return. -/
def isSpace (c : Char) : Bool :=
  c == ' ' || c == '\t' || c == '\n' || c == '\x0b' || c == '\x0c' || c == '\r'

/-- The tokens of a line, "separated by whitespace" (R71). -/
def tokens (line : List Char) : List (List Char) :=
  (cutAt isSpace line).filter (fun t => !t.isEmpty)

/-- Whether a line holds a comment marker (R71 names none). PRESUMED (log 7): `#`, `;` and `//`. -/
def hasCommentMarker : List Char → Bool
  | [] => false
  | c :: cs => c == '#' || c == ';' || (c == '/' && cs.head? == some '/') || hasCommentMarker cs

/-! ## Text: opcode tokens -/

/-- The opcode a token selects, by exact match; any other token is UNKNOWN (R72, R73). -/
def opcodeOf (t : List Char) : Opcode :=
  if t = ['J', 'A', 'L'] then .jal
  else if t = ['B', 'N', 'E'] then .bne
  else if t = ['A', 'D', 'D'] then .add
  else if t = ['S', 'U', 'B'] then .sub
  else if t = ['S', 'W', 'A', 'P'] then .swap
  else .unknown

/-- The capital of an ASCII lower-case letter; any other character is itself (log 20). -/
def upperChar (c : Char) : Char :=
  if 97 ≤ c.toNat ∧ c.toNat ≤ 122 then Char.ofNat (c.toNat - 32) else c

/-- The known opcode that a token differs from in letter case only, if there is one (R73). -/
def caseVariantOf (t : List Char) : Option Opcode :=
  if opcodeOf t = .unknown ∧ opcodeOf (t.map upperChar) ≠ .unknown then some (opcodeOf (t.map upperChar)) else none

/-! ## Text: operand tokens -/

/-- The value of a digit character in a base up to 16 (R75). -/
def digitOf (base : Nat) (c : Char) : Option Nat :=
  let n := c.toNat
  let d := if 48 ≤ n ∧ n ≤ 57 then some (n - 48)
    else if 97 ≤ n ∧ n ≤ 102 then some (n - 87)
    else if 65 ≤ n ∧ n ≤ 70 then some (n - 55)
    else none
  d.filter (fun v => decide (v < base))

/-- The value of digits after a prefix of value `acc`; `none` if a character is no digit of the base. -/
def digitsFrom (base : Nat) : Nat → List Char → Option Nat
  | acc, [] => some acc
  | acc, c :: cs => (digitOf base c).bind fun d => digitsFrom base (acc * base + d) cs

/-- The value of one or more digits (R74, R75); `none` if there is none or a character is no digit of the base. -/
def digits (base : Nat) (cs : List Char) : Option Nat :=
  if cs.isEmpty then none else digitsFrom base 0 cs

/-- The register index of a value, when it is in [0,31] (R74). -/
def regIxOf (v : Nat) : RegField :=
  if h : v < 32 then some ⟨v, h⟩ else none

/-- The register-token parser `reg` (R74): `x` and decimal digits; every other token, a missing one too, is ABSENT. -/
def parseReg : Option (List Char) → RegField
  | some (c :: ds) => if c = 'x' then (digits 10 ds).bind regIxOf else none
  | _ => none

/-- Decimal with an optional sign (R75). -/
def parseSigned (t : List Char) : Option Int :=
  match t with
  | [] => none
  | c :: cs =>
    if c = '-' then (digits 10 cs).map fun v => -(v : Int)
    else if c = '+' then (digits 10 cs).map fun v => (v : Int)
    else (digits 10 t).map fun v => (v : Int)

/-- The number a token stands for, by its prefix; `none` is a parse failure (R75). A sign applies only to decimal. -/
def parseNumber (t : List Char) : Option Int :=
  match t with
  | a :: b :: cs =>
    if a = '0' ∧ (b = 'x' ∨ b = 'X') then (digits 16 cs).map fun v => (v : Int)
    else if a = '0' ∧ (b = 'b' ∨ b = 'B') then (digits 2 cs).map fun v => (v : Int)
    else parseSigned t
  | _ => parseSigned t

/-- The immediate parser `parseImm` (R75): a missing token and a parse failure give 0; a value outside the range of a
word is refused. -/
def parseImm (t : Option (List Char)) : Except TextRefusal Word :=
  match t.bind parseNumber with
  | none => .ok 0
  | some v => if -2147483648 ≤ v ∧ v ≤ 2147483647 then .ok (BitVec.ofInt 32 v) else .error (.immOutOfRange v)

/-! ## Text: a line and a program -/

/-- The operand token that `imm` is parsed from: the second for JAL, the third for BNE, none for the others (R76). -/
def immToken (op : Opcode) (operands : List (List Char)) : Option (List Char) :=
  match op with
  | .jal => operands[1]?
  | .bne => operands[2]?
  | _ => none

/-- The template of an opcode and its operand tokens: every opcode takes its register fields from the same token
positions (R76). -/
def templateOf (op : Opcode) (operands : List (List Char)) : Except TextRefusal Template :=
  match parseImm (immToken op operands) with
  | .error e => .error e
  | .ok v =>
    .ok { opcode := op, rd := parseReg operands[0]?, rs1 := parseReg operands[1]?, rs2 := parseReg operands[2]?, imm := v }

/-- The template of a line's tokens: an opcode and up to three operands (R71, R73). DEDUCED (log 9): a non-empty line without
tokens, of white space only, is an entry with no opcode token, so UNKNOWN, since only the cases of R71, R73 and R75 are
refused (R77) and each non-empty line is one instruction (R78). -/
def templateOfTokens (ts : List (List Char)) : Except TextRefusal Template :=
  match ts with
  | [] => templateOf .unknown []
  | t0 :: operands =>
    if 3 < operands.length then .error (.tooManyTokens (operands.length + 1))
    else
      match caseVariantOf t0 with
      | some op => .error (.caseVariant op)
      | none => templateOf (opcodeOf t0) operands

/-- The transcriber: one program line to its template, or a refusal by name (R71 to R76; their order is log 15). -/
def transcribeLine (line : List Char) : Except TextRefusal Template :=
  if line.contains ',' then .error .comma
  else if hasCommentMarker line then .error .commentMarker
  else templateOfTokens (tokens line)

/-- The non-empty lines of a text, in order (R71). -/
def programLines (text : List Char) : List (List Char) :=
  (cutAt (fun c => c == '\n') text).filter (fun l => !l.isEmpty)

/-- All lines of a program, in order; the first refusal refuses the text (R71, R78: one instruction a line). -/
def transcribeLines : List (List Char) → Except TextRefusal (List Template)
  | [] => .ok []
  | l :: ls =>
    match transcribeLine l, transcribeLines ls with
    | .ok t, .ok ts => .ok (t :: ts)
    | .error e, _ => .error e
    | _, .error e => .error e

/-- PROG from program text (R71, R76). -/
def transcribe (text : List Char) : Except TextRefusal (List Template) := transcribeLines (programLines text)

/-! ## Text: the canonical line of a template (R79, R80) -/

/-- An opcode's token. R80 gives `NOP` as the spelling of the UNKNOWN without operands; DESIGN CHOICE (log 23): every other
UNKNOWN is spelled with it too, its operands behind it. -/
def opcodeToken : Opcode → List Char
  | .jal => ['J', 'A', 'L']
  | .bne => ['B', 'N', 'E']
  | .add => ['A', 'D', 'D']
  | .sub => ['S', 'U', 'B']
  | .swap => ['S', 'W', 'A', 'P']
  | .unknown => ['N', 'O', 'P']

/-- The digit character of a value below 10. -/
def digitChar (d : Nat) : Char := Char.ofNat (48 + d)

/-- A number in decimal, without leading zeros, of at most `fuel + 1` digits. -/
def decimal : Nat → Nat → List Char
  | 0, n => [digitChar (n % 10)]
  | fuel + 1, n => if n < 10 then [digitChar n] else decimal fuel (n / 10) ++ [digitChar (n % 10)]

/-- The token of a register, `x0` to `x31` (R79). -/
def regToken (r : RegIx) : List Char := 'x' :: decimal 1 r.val

/-- The token of an immediate, in decimal (R79). -/
def immSpelling (v : Word) : List Char :=
  if v.toInt < 0 then '-' :: decimal 9 v.toInt.natAbs else decimal 9 v.toInt.natAbs

/-- The operand tokens of a template, `none` where the field is ABSENT and no immediate is spelled (R80; log 23). -/
def operandTokens (t : Template) : List (Option (List Char)) :=
  match t.opcode with
  | .jal => [t.rd.map regToken, some ((t.rs1.map regToken).getD (immSpelling t.imm)), t.rs2.map regToken]
  | .bne => [t.rd.map regToken, t.rs1.map regToken, some ((t.rs2.map regToken).getD (immSpelling t.imm))]
  | _ => [t.rd.map regToken, t.rs1.map regToken, t.rs2.map regToken]

/-- Leaves out the missing tokens at the end, and spells a missing token before another as `-`, which is neither a
register token nor a number (R74, R75; log 23). -/
def spellOperands : List (Option (List Char)) → List (List Char)
  | [] => []
  | t :: ts =>
    match t, spellOperands ts with
    | none, [] => []
    | none, rest => ['-'] :: rest
    | some w, rest => w :: rest

/-- Tokens joined by one blank each. -/
def joinTokens : List (List Char) → List Char
  | [] => []
  | [t] => t
  | t :: ts => t ++ ' ' :: joinTokens ts

/-- The canonical line of a template (R80; log 23). -/
def encodeLine (t : Template) : List Char :=
  joinTokens (opcodeToken t.opcode :: spellOperands (operandTokens t))

/-! ## Stage register (R82): fields -/

/-- The `len` bits of a word from bit `lo` on. -/
def bitField (w lo len : Nat) : Nat := w / 2 ^ lo % 2 ^ len

/-- Opcode bits [3:1] (R82). -/
def opcodeCode : Opcode → Nat
  | .jal => 0
  | .bne => 1
  | .add => 2
  | .sub => 3
  | .swap => 4
  | .unknown => 7

/-- The opcode of a code; 101 and 110 never occur (R82). -/
def opcodeOfCode (n : Nat) : Option Opcode :=
  match n with
  | 0 => some .jal
  | 1 => some .bne
  | 2 => some .add
  | 3 => some .sub
  | 4 => some .swap
  | 7 => some .unknown
  | _ => none

/-- The six bits of a register field: a present bit above a five-bit index; ABSENT is all zero (R82). -/
def regCode : RegField → Nat
  | none => 0
  | some r => 32 + r.val

/-- The register field of six bits: with the present bit 0 it is ABSENT, whatever the index bits (R82; log 16). -/
def regOfCode (n : Nat) : RegField :=
  if n / 32 % 2 = 1 then some ⟨n % 32, Nat.mod_lt n (by decide)⟩ else none

/-- `K = ceil(log2 NUM_CORES)`, the width of the `core_id` field (R82). -/
def coreIdBits (numCores : Nat) : Nat :=
  if numCores ≤ 1 then 0 else Nat.log2 (numCores - 1) + 1

/-! ## Stage register: decoder -/

/-- What a stage register of a block of `numCores` cores holds (R82): `none` when `valid` is 0, whatever the other
bits; otherwise the record, or a rejection by name. -/
def decodeSlot (numCores w : Nat) : Except DecodeError (Option Instr) :=
  if bitField w 0 1 = 0 then .ok none
  else
    match opcodeOfCode (bitField w 1 3) with
    | none => .error (.reservedOpcode (bitField w 1 3))
    | some op =>
      let c := bitField w 86 (coreIdBits numCores)
      if c < numCores then
        .ok (some (.ofFields op c (BitVec.ofNat 32 (bitField w 54 32)) (regOfCode (bitField w 4 6))
          (regOfCode (bitField w 10 6)) (regOfCode (bitField w 16 6)) (BitVec.ofNat 32 (bitField w 22 32))))
      else .error (.coreOutOfRange c)

/-- The record and the latency counter an execute stage register holds: `lr` is an extra field of the execute slot
(R82), here above `core_id` (DESIGN CHOICE, log 5). An occupied slot's counter is positive (R33). -/
def decodeExecSlot (numCores w : Nat) : Except DecodeError (Option (Instr × Nat)) :=
  match decodeSlot numCores w with
  | .error e => .error e
  | .ok none => .ok none
  | .ok (some i) =>
    if w / 2 ^ (86 + coreIdBits numCores) = 0 then .error .zeroLatency
    else .ok (some (i, w / 2 ^ (86 + coreIdBits numCores)))

/-- The instruction the decoder reads from a word of `nbits` bits, every bit above them 0: the stage register (R82) of
a block of one core, which has no `core_id` bits. A word without the `origin_pc` bits stands for a record with
`origin_pc` 0 (log 14). -/
def decodeTableWord (nbits w : Nat) : Option Instr :=
  match decodeSlot 1 (w % 2 ^ nbits) with
  | .ok (some i) => some i
  | _ => none

/-! ## Stage register: encoder -/

/-- Bits [53:0] of the stage register of an occupied slot: what comes from the template (R82). -/
def encodeTemplate (t : Template) : Nat :=
  1 + opcodeCode t.opcode * 2 ^ 1 + regCode t.rd * 2 ^ 4 + regCode t.rs1 * 2 ^ 10 + regCode t.rs2 * 2 ^ 16
    + t.imm.toNat * 2 ^ 22

/-- The stage register of a slot (R82); an empty slot is written as 0 (log 16). -/
def encodeSlot : Option Instr → Nat
  | none => 0
  | some i => encodeTemplate i.template + i.originPc.toNat * 2 ^ 54 + i.coreId * 2 ^ 86

/-- The stage register of the execute slot, with its counter above `core_id` (R82; log 5). -/
def encodeExecSlot (numCores : Nat) : Option (Instr × Nat) → Nat
  | none => 0
  | some (i, lr) => encodeSlot (some i) + lr * 2 ^ (86 + coreIdBits numCores)

/-- The stage-register word of a record: the encoder of an instruction. -/
def encode (i : Instr) : Nat := encodeSlot (some i)

end Sys2Proof
end

