-- ==== Sys2Proof/Machine/Memory.lean ====
section
/-! DEFINITION. The data memory DMEM (10_state.md R41; 20_memory.md R50, R54, R56, R58): one flat array of `size`
integers, held as a list of (index, integer) pairs in one canonical form. The hardware has no byte-addressable
storage (R54), so a cell holds a whole integer and not a byte. No instruction reaches it (R56). -/

namespace Sys2Proof.Machine

/-- DMEM: `size` is DMEM_SIZE, and `cells` lists the indices whose integer is not 0. -/
structure Memory where
  size : Nat
  cells : List (Nat × Int)
deriving DecidableEq, Repr

/-- What an index of the array that `cells` does not list holds. This is only how an array is written down (log 4): the
contents come from DMEM_INIT, and a populated array lists every index whose integer is not 0. -/
def unlistedCell : Int := 0

/-- The canonical form: indices strictly rising and inside the array, and no entry equal to what an unlisted index
holds, so that equal arrays are equal data. -/
abbrev Memory.wf (m : Memory) : Prop :=
  (m.cells.map Prod.fst).Pairwise (· < ·) ∧ ∀ p ∈ m.cells, p.1 < m.size ∧ p.2 ≠ unlistedCell

/-- The integer a list of cells gives an index. -/
def lookupCell : List (Nat × Int) → Nat → Int
  | [], _ => unlistedCell
  | (b, u) :: rest, a => if a = b then u else lookupCell rest a

/-- The cells with index `a` set to `v`, kept in the canonical form. -/
def insertCell : List (Nat × Int) → Nat → Int → List (Nat × Int)
  | [], a, v => if v = unlistedCell then [] else [(a, v)]
  | (b, u) :: rest, a, v =>
    if a < b then (if v = unlistedCell then (b, u) :: rest else (a, v) :: (b, u) :: rest)
    else if a = b then (if v = unlistedCell then rest else (a, v) :: rest)
    else (b, u) :: insertCell rest a v

/-- Reads index `a`, a whole integer; `none` when the array has no such index. It is MemRead of R7, which no step invokes
(R56). DESIGN CHOICE (log 24): without R7's size argument, and with no value outside the array. -/
def Memory.read (m : Memory) (a : Nat) : Option Int :=
  if a < m.size then some (lookupCell m.cells a) else none

/-- Writes index `a`, a whole integer; `none` when the array has no such index. It is MemWrite of R7, which no step invokes
(R56). DESIGN CHOICE (log 24), as in `Memory.read`. -/
def Memory.write (m : Memory) (a : Nat) (v : Int) : Option Memory :=
  if a < m.size then some { m with cells := insertCell m.cells a v } else none

/-- The cells of an array's integers, the first at index `k`. -/
def cellsFrom (k : Nat) : List Int → List (Nat × Int)
  | [] => []
  | v :: vs => if v = unlistedCell then cellsFrom (k + 1) vs else (k, v) :: cellsFrom (k + 1) vs

/-- The memory that holds an array's integers (R41). -/
def Memory.ofArray (vs : List Int) : Memory := { size := vs.length, cells := cellsFrom 0 vs }

/-- The index range core `c` of `numCores` owns, as (first, end) (R58; the rounding is the spec's decision D22). -/
def Memory.ownedRange (m : Memory) (numCores c : Nat) : Nat × Nat :=
  (c * m.size / numCores, (c + 1) * m.size / numCores)

end Sys2Proof.Machine
end

