-- ==== Sys2Proof/Machine/State.lean ====
section
/-! DEFINITION. The state of the block as plain data: the tuple of 10_state.md R43 with the run-constant parameters it
names, the reasons a step can stop, construction (70_reset_and_hazards.md R200) and the state after reset. -/

namespace Sys2Proof.Machine

/-- The faults of the machine: none. "The hardware raises no synchronous exception" (R180) and "There is no *fault*
outcome, because the hardware has none" (R184), so this inductive has no constructor and no step can answer a fault. -/
inductive Fault where
deriving DecidableEq, Repr

/-- Why the model gives no meaning. Every one is a refusal of the model and not of the hardware (R184 (c), (d)), and each
is safe: the model stops where it asserts nothing. -/
inductive Refusal where
  /-- An instruction whose meaning is not written yet: raised by an arm of `exec` only. No arm raises it. Safe. -/
  | notModelled (mnemonic : String)
  /-- `NUM_CORES < 1` (R184 (c); D21): raised by every step of a state without cores (log 18). Safe. -/
  | noCores
  /-- Some `LAT(op) < 1` (R6, R184 (c); D27): raised by every step of such a state, and by `setLatency`. Safe. -/
  | latencyBelowOne
  /-- `set_latency` for UNKNOWN (R184 (c); D27): raised by `setLatency`. Safe. -/
  | latencyOfUnknown
  /-- A configuration or loading request once a run has started (R171, R184 (c); D28): raised by the calls of
  Interface.lean. Safe. -/
  | runStarted
  /-- A record whose `core_id` is not a core of the block: raised by the Executor. No record of a run is such (R27, R100).
  Safe. -/
  | noSuchCore (c : Nat)
  /-- Program text the transcriber refuses (R184 (d)): raised by `loadText`. Safe. -/
  | text (r : TextRefusal)
deriving DecidableEq, Repr

/-- The contents of an occupied execute slot: the record and `latency_remaining` (R33). -/
structure ExecSlot where
  instr : Instr
  lr : Nat
deriving DecidableEq, Repr

/-- The five stage slots of one core (R33): fetch, decode, execute, memory, writeback. -/
structure Slots where
  f : Option Instr
  d : Option Instr
  e : Option ExecSlot
  m : Option Instr
  w : Option Instr
deriving DecidableEq, Repr

/-- Every slot empty. -/
def Slots.empty : Slots := { f := none, d := none, e := none, m := none, w := none }

/-- One core (R20, R33): its registers `x0` to `x31`, its pc, its `stalled` flag and its slots. The constant `core_id` is
the core's position in `State.cores` (R27; log 10). -/
structure CoreState where
  x : Vector Word 32
  pc : Word
  stalled : Bool
  slots : Slots
deriving DecidableEq, Repr

/-- The complete state of the block (R43). `prog`, `lat`, `fwd` and `dmem` are the run's parameters: no step changes them
(R53, R38, R39, R56). NUM_CORES is the length of `cores`. -/
structure State where
  /-- The cores, core `c` at position `c` (R20). -/
  cores : List CoreState
  /-- The global cycle counter (R37). -/
  cycles : Nat
  /-- The global stall counter (R37). -/
  stalls : Nat
  /-- The flag of R152. -/
  terminated : Bool
  /-- PROG (R40). -/
  prog : List Template
  /-- LAT (R38). -/
  lat : LatTable
  /-- FWD (R39). -/
  fwd : Bool
  /-- DMEM (R41). -/
  dmem : Memory
deriving DecidableEq, Repr

/-- Core `c` right after construction: every register 0 except `x3`, which is `c` as a word (R24; log 13), pc 0 (R25),
`stalled` false (R26), every slot empty (R35). -/
def CoreState.construct (c : Nat) : CoreState :=
  { x := (Vector.replicate 32 0).set 3 (BitVec.ofNat 32 c), pc := 0, stalled := false, slots := .empty }

/-- Construction, which is the reset of the block, for a run's parameters (R200, R202). -/
def State.construct (p : Params) : State :=
  { cores := (List.range p.numCores).map CoreState.construct
    cycles := 0
    stalls := 0
    terminated := false
    prog := p.prog
    lat := p.lat
    fwd := p.fwd
    dmem := .ofArray p.dmemInit }

/-- The machine right after reset: construction with the parameters of `Params.standard` (log 1). Its program is empty: a
program is loaded from outside (R202; log 2). -/
def State.reset : State := .construct .standard

end Sys2Proof.Machine
end

