-- ==== Sys2Proof/Machine/Operands.lean ====
section
/-! DEFINITION. The operand forms: a register of a core read and written, and the comparison of register fields
(00_scope.md R7; 10_state.md R21 to R23). There is no other operand form: no instruction accesses memory (R111) and an
immediate is already a word. -/

namespace Sys2Proof.Machine

/-- `x[r]`, the live register (R7, R100). -/
def CoreState.readReg (k : CoreState) (r : RegIx) : Word := k.x[r.val]

/-- `x[r] <- v`. No register is hardwired: x0 and x3 are ordinary (R22). -/
def CoreState.writeReg (k : CoreState) (r : RegIx) (v : Word) : CoreState := { k with x := k.x.set r.val v }

/-- `sameReg`: both fields valid and equal; ABSENT matches nothing, not even ABSENT (R7). -/
def sameReg (a b : RegField) : Bool :=
  match a, b with
  | some x, some y => x == y
  | _, _ => false

end Sys2Proof.Machine
end

