-- ==== Sys2Proof/Machine/Flags.lean ====
section
/-! DEFINITION. Conditions. The hardware has no condition codes, status flags or predicates (10_state.md R28), so there is
no flag computation: the one condition an instruction evaluates is BNE's comparison of two registers (R104). -/

namespace Sys2Proof.Machine

/-- `x[a] != x[b]`, on whole words (R104). -/
def CoreState.differ (k : CoreState) (a b : RegIx) : Bool := k.readReg a != k.readReg b

end Sys2Proof.Machine
end

