-- ==== Sys2Proof/Machine/Ops.lean ====
section
/-! DEFINITION. The operations the meanings and the scheduler share: the pc's moves, a change to one core, the sequencing
of outcomes, and the check of the run's parameters. The hardware takes no exception and has no return from one
(60_exceptions.md R180, R183), so there is no such operation here. -/

namespace Sys2Proof.Machine

/-- An outcome of a part of a step; the state of the part may be more than `State`. -/
abbrev Result (σ : Type) := Host.Outcome σ Fault Refusal

/-- Goes on from a next state; a fault or a refusal ends the step. -/
def chain {σ τ : Type} (o : Result σ) (f : σ → Result τ) : Result τ :=
  match o with
  | .next s => f s
  | .fault r => .fault r
  | .refused r => .refused r

/-- `pc <- pc + v`, wrapping modulo 2^32 (R25). -/
def CoreState.addPc (k : CoreState) (v : Word) : CoreState := { k with pc := k.pc + v }

/-- The default increment, `pc <- pc + 4` (R101). -/
def CoreState.advance (k : CoreState) : CoreState := k.addPc Config.stepSize

/-- Core `c` changed by `f`, everything else as it was. -/
def State.updateCore (s : State) (c : Nat) (f : CoreState → CoreState) : State :=
  { s with cores := s.cores.modify c f }

/-- The Executor's effect on the CoreState of core `c` (R100): a next state in which `f` has changed that core and nothing
else, or a refusal when the block has no such core. -/
def onCore (s : State) (c : Nat) (f : CoreState → CoreState) : Result State :=
  match s.cores[c]? with
  | some _ => .next (s.updateCore c f)
  | none => .refused (.noSuchCore c)

/-- The refusal of a run's parameters, if there is one (R6, R184 (c)). -/
def State.refusedConfig (s : State) : Option Refusal :=
  if s.cores.isEmpty then some .noCores
  else if s.lat.WellFormed then none
  else some .latencyBelowOne

end Sys2Proof.Machine
end

