-- ==== Sys2Proof/Machine/Arith.lean ====
section
/-! DEFINITION. The register instructions ADD, SUB and SWAP (40_instructions.md R105 to R107). Each ends with the default
increment of the pc (R101). -/

namespace Sys2Proof.Machine

/-- ADD (R105): with all three fields valid, `x[rd] <- x[rs1] + x[rs2]`, wrapping modulo 2^32, both sources read before
the write. -/
def execAdd (coreId : Nat) (_originPc : Word) (rd rs1 rs2 : RegField) (_imm : Word) (s : State) : Result State :=
  onCore s coreId fun k =>
    match rd, rs1, rs2 with
    | some d, some a, some b => (k.writeReg d (k.readReg a + k.readReg b)).advance
    | _, _, _ => k.advance

/-- SUB (R106): with all three fields valid, `x[rd] <- x[rs1] - x[rs2]`, wrapping modulo 2^32. -/
def execSub (coreId : Nat) (_originPc : Word) (rd rs1 rs2 : RegField) (_imm : Word) (s : State) : Result State :=
  onCore s coreId fun k =>
    match rd, rs1, rs2 with
    | some d, some a, some b => (k.writeReg d (k.readReg a - k.readReg b)).advance
    | _, _, _ => k.advance

/-- SWAP (R107): with `rs1` and `rs2` valid, the two registers are exchanged, both values read before either write; `rd`
is not used. -/
def execSwap (coreId : Nat) (_originPc : Word) (_rd rs1 rs2 : RegField) (_imm : Word) (s : State) : Result State :=
  onCore s coreId fun k =>
    match rs1, rs2 with
    | some a, some b => ((k.writeReg a (k.readReg b)).writeReg b (k.readReg a)).advance
    | _, _ => k.advance

end Sys2Proof.Machine
end

