-- ==== Sys2Proof/Machine/Control.lean ====
section
/-! DEFINITION. The control transfers JAL and BNE (40_instructions.md R103, R104). Both act on the live pc (R102). -/

namespace Sys2Proof.Machine

/-- JAL (R103): with a valid `rd`, `x[rd] <- origin_pc + 4` and `pc <- pc + imm` with no default +4; otherwise only the
default +4. -/
def execJal (coreId : Nat) (originPc : Word) (rd _rs1 _rs2 : RegField) (imm : Word) (s : State) : Result State :=
  onCore s coreId fun k =>
    match rd with
    | some d => (k.writeReg d (originPc + Config.stepSize)).addPc imm
    | none => k.advance

/-- BNE (R104): with a valid `rd` and `rs1`, `pc <- pc + imm` when the two registers differ and `pc <- pc + 4` when they
are equal; otherwise only the default +4. No register is written. -/
def execBne (coreId : Nat) (_originPc : Word) (rd rs1 _rs2 : RegField) (imm : Word) (s : State) : Result State :=
  onCore s coreId fun k =>
    match rd, rs1 with
    | some a, some b => if k.differ a b then k.addPc imm else k.advance
    | _, _ => k.advance

end Sys2Proof.Machine
end

