-- ==== Sys2Proof/Machine/NoOp.lean ====
section
/-! DEFINITION. UNKNOWN, the no-op that any other opcode token decodes to (40_instructions.md R108). -/

namespace Sys2Proof.Machine

/-- UNKNOWN (R108): `pc <- pc + 4` and nothing else. -/
def execUnknown (coreId : Nat) (_originPc : Word) (_rd _rs1 _rs2 : RegField) (_imm : Word) (s : State) : Result State :=
  onCore s coreId fun k => k.advance

end Sys2Proof.Machine
end

