-- ==== Sys2Proof/Machine/Dispatch.lean ====
section
/-! DEFINITION. The Executor (40_instructions.md R100): one arm per constructor of Instr, each one call of its meaning. -/

namespace Sys2Proof.Machine

def exec (i : Instr) (s : State) : Host.Outcome State Fault Refusal :=
  match i with
  | .jal coreId originPc rd rs1 rs2 imm => Sys2Proof.Machine.execJal coreId originPc rd rs1 rs2 imm s
  | .bne coreId originPc rd rs1 rs2 imm => Sys2Proof.Machine.execBne coreId originPc rd rs1 rs2 imm s
  | .add coreId originPc rd rs1 rs2 imm => Sys2Proof.Machine.execAdd coreId originPc rd rs1 rs2 imm s
  | .sub coreId originPc rd rs1 rs2 imm => Sys2Proof.Machine.execSub coreId originPc rd rs1 rs2 imm s
  | .swap coreId originPc rd rs1 rs2 imm => Sys2Proof.Machine.execSwap coreId originPc rd rs1 rs2 imm s
  | .unknown coreId originPc rd rs1 rs2 imm => Sys2Proof.Machine.execUnknown coreId originPc rd rs1 rs2 imm s

end Sys2Proof.Machine
end

