-- ==== Sys2Proof/Machine/Units.lean ====
section
/-! DEFINITION. The units the scheduler invokes: instruction fetch (20_memory.md R51; 10_state.md R31), the HazardUnit
and the ForwardingUnit (41_pipeline_units.md R130 to R138), and the latency lookup (R139). -/

namespace Sys2Proof.Machine

/-- `fetchIndex(p)`: `p div 4` when `p` is not negative and the program has such an entry, `n` being its length (R51). -/
def fetchIndex (p : Word) (n : Nat) : Option Nat :=
  if 0 ≤ p.toInt ∧ p.toInt / 4 < n then some (p.toInt / 4).toNat else none

/-- The record the fetching core builds from a PROG entry (R31). -/
def fetchRecord (coreId : Nat) (pc : Word) (t : Template) : Instr :=
  .ofFields t.opcode coreId pc t.rd t.rs1 t.rs2 t.imm

/-- The execute latency of an opcode: the table's entry, and 1 for UNKNOWN (R38, R139; R6). -/
def latencyOf (lat : LatTable) : Opcode → Nat
  | .jal => lat.jal
  | .bne => lat.bne
  | .add => lat.add
  | .sub => lat.sub
  | .swap => lat.swap
  | .unknown => 1

/-- The instruction of the execute slot, `instr(E)` (R131). -/
def Slots.inExecute (z : Slots) : Option Instr := z.e.map ExecSlot.instr

/-- The producers, in the order execute, memory, writeback (R131, R136). -/
def Slots.producers (z : Slots) : List Instr := [z.inExecute, z.m, z.w].filterMap id

/-- Whether the decode instruction `d` names the `rd` field of `p` as a source (R131, R133). -/
def dependsOn (d p : Instr) : Bool := p.rd.isSome && (sameReg d.rs1 p.rd || sameReg d.rs2 p.rd)

/-- The answer of the HazardUnit on one core's start-of-cycle slots (R131, R132, R134). -/
def hazard (z : Slots) (fwd : Bool) : Bool :=
  if fwd then false
  else
    match z.d with
    | none => false
    | some d => z.producers.any (dependsOn d)

/-- The HazardUnit: its answer, and the stall counter after the call, one more when it stalls (R130, R131). -/
def hazardUnit (z : Slots) (fwd : Bool) (stalls : Nat) : Bool × Nat :=
  if hazard z fwd then (true, stalls + 1) else (false, stalls)

/-- One producer's turn in the ForwardingUnit: a matching source field is rewritten to the producer's register index
(R136). -/
def forwardFrom (d p : Instr) : Instr :=
  d.withSources (if sameReg p.rd d.rs1 then p.rd else d.rs1) (if sameReg p.rd d.rs2 then p.rd else d.rs2)

/-- The ForwardingUnit on the decode instruction `d` (R136). -/
def forward (z : Slots) (d : Instr) : Instr := z.producers.foldl forwardFrom d

end Sys2Proof.Machine
end

