-- ==== Sys2Proof/Machine/Pipeline.lean ====
section
/-! DEFINITION. The scheduler (42_scheduler.md R150 to R163): the six steps of a core's cycle in their order, the core
step, and the cycle over all active cores. Slots are read at their start-of-cycle values and written for the next
cycle (R154); registers, pc, `stalled` and the counters are live (R155). -/

namespace Sys2Proof.Machine

/-- What the steps of one core's cycle build: the live state, the next-cycle slots `F'` to `W'`, and `exBusy` (R154, R155,
R163). -/
structure CycleWork where
  st : State
  nxt : Slots
  exBusy : Bool
deriving DecidableEq, Repr

/-- The start of a core step: every next-cycle slot empty, `exBusy` false (R163). -/
def startWork (s : State) : CycleWork := { st := s, nxt := .empty, exBusy := false }

/-- Writeback step (R156): the hook does nothing and the instruction leaves the pipeline. -/
def writebackStep (_old : Slots) (k : CycleWork) : CycleWork := k

/-- Memory step (R157): the hook does nothing; the instruction moves to writeback. -/
def memoryStep (old : Slots) (k : CycleWork) : CycleWork := { k with nxt := { k.nxt with w := old.m } }

/-- Execute step (R158) with the latency gating of R140: the counter is tested before it is decremented. -/
def executeStep (old : Slots) (k : CycleWork) : Result CycleWork :=
  match old.e with
  | none => .next { k with exBusy := false }
  | some e =>
    if 1 < e.lr then
      .next { k with nxt := { k.nxt with e := some { instr := e.instr, lr := e.lr - 1 } }, exBusy := true }
    else
      chain (exec e.instr k.st) fun t =>
        .next { st := t, nxt := { k.nxt with m := some e.instr, e := none }, exBusy := false }

/-- Decode step (R159): a structural hold while execute is busy; otherwise the instruction, through the ForwardingUnit when
FWD is on, moves to execute with its latency (R136, R139). -/
def decodeStep (old : Slots) (k : CycleWork) : CycleWork :=
  match old.d with
  | none => k
  | some d =>
    if k.exBusy then { k with nxt := { k.nxt with d := some d } }
    else
      { k with
        nxt := { k.nxt with
          e := some { instr := if k.st.fwd then forward old d else d, lr := latencyOf k.st.lat d.opcode }
          d := none } }

/-- `stalled <- b` for core `c`. -/
def setStalled (c : Nat) (b : Bool) (s : State) : State := s.updateCore c fun k => { k with stalled := b }

/-- Fetch step of core `c` (R160): the HazardUnit decides, and counts, whenever the fetch slot is occupied; a structural
hold keeps the instruction too, without counting. -/
def fetchStep (c : Nat) (old : Slots) (k : CycleWork) : CycleWork :=
  match old.f with
  | none => k
  | some f =>
    let answer := hazardUnit old k.st.fwd k.st.stalls
    let st := setStalled c answer.1 { k.st with stalls := answer.2 }
    if answer.1 then { k with st := st, nxt := { k.nxt with f := some f } }
    else if k.nxt.d.isSome then { k with st := st, nxt := { k.nxt with f := some f } }
    else { k with st := st, nxt := { k.nxt with d := some f, f := none } }

/-- The index of PROG that the new-fetch step of core `c` reads, if it reads one: the entry at the live pc, unless the core
is stalled or its fetch slot is filled already (R161; the port `prog_rd_idx[c]` of R170). A structural hold does not keep it
from filling an empty fetch slot (log 11). -/
def newFetchIndex (c : Nat) (k : CycleWork) : Option Nat :=
  match k.st.cores[c]? with
  | none => none
  | some core => if core.stalled || k.nxt.f.isSome then none else fetchIndex core.pc k.st.prog.length

/-- New-fetch step of core `c` (R161): reads PROG at that index into the empty fetch slot and adds 4 to the pc. -/
def newFetchStep (c : Nat) (k : CycleWork) : CycleWork :=
  match k.st.cores[c]? with
  | none => k
  | some core =>
    match (newFetchIndex c k).bind (k.st.prog[·]?) with
    | none => k
    | some t =>
      { k with
        st := k.st.updateCore c CoreState.advance
        nxt := { k.nxt with f := some (fetchRecord c core.pc t) } }

/-- The next-cycle slots become the slots of core `c` (R154, R163). -/
def commitSlots (c : Nat) (k : CycleWork) : State := k.st.updateCore c fun core => { core with slots := k.nxt }

/-- The first five of the six steps of core `c`, in order: writeback, memory, execute, decode, fetch (R163). -/
def beforeNewFetch (c : Nat) (s : State) : Result CycleWork :=
  match s.cores[c]? with
  | none => .refused (.noSuchCore c)
  | some core =>
    chain (executeStep core.slots (memoryStep core.slots (writebackStep core.slots (startWork s)))) fun k =>
      .next (fetchStep c core.slots (decodeStep core.slots k))

/-- The core step of core `c`: the six steps in order, new fetch last (R163). -/
def coreStep (c : Nat) (s : State) : Result State :=
  chain (beforeNewFetch c s) fun k => .next (commitSlots c (newFetchStep c k))

/-- Whether any slot is occupied. -/
def Slots.occupied (z : Slots) : Bool :=
  z.f.isSome || z.d.isSome || z.e.isSome || z.m.isSome || z.w.isSome

/-- Whether a core is active, `n` being the length of PROG (R151). -/
def CoreState.active (k : CoreState) (n : Nat) : Bool := k.slots.occupied || (fetchIndex k.pc n).isSome

/-- Whether core `c` of a state is active. -/
def State.coreActive (s : State) (c : Nat) : Bool :=
  match s.cores[c]? with
  | none => false
  | some k => k.active s.prog.length

/-- The active cores at the start of a cycle, in ascending order of core id (R151, R153). -/
def State.activeCores (s : State) : List Nat := (List.range s.cores.length).filter s.coreActive

/-- The core steps of the listed cores, one after another (R153). -/
def serviceCores : List Nat → State → Result State
  | [], s => .next s
  | c :: cs, s => chain (coreStep c s) (serviceCores cs)

/-- One cycle in which the listed cores are active (R153): their core steps, then `cycles <- cycles + 1`. -/
def serviceCycle (cs : List Nat) (s : State) : Result State :=
  chain (serviceCores cs s) fun t => .next { t with cycles := t.cycles + 1 }

/-- One iteration of the scheduler loop (R150, R152, R153). A terminated block changes nothing; with no active core the
run terminates; parameters the model refuses have no run (R184). -/
def schedulerStep (s : State) : Result State :=
  match s.refusedConfig with
  | some r => .refused r
  | none =>
    if s.terminated then .next s
    else if s.activeCores.isEmpty then .next { s with terminated := true }
    else serviceCycle s.activeCores s

end Sys2Proof.Machine
end

