-- ==== Sys2Proof/Machine/Step.lean ====
section
/-! DEFINITION. The machine's step, one cycle of the scheduler, and where the host places an instruction so that the next
step runs it. -/

namespace Sys2Proof.Machine

/-- One step of the machine: one cycle (R150). -/
def step (s : State) : Host.Outcome State Fault Refusal := schedulerStep s

/-- The state with the instruction of a stage-register word in core 0's execute slot, its latency run out, so that the next
step runs it (R140, R158); log 2 says how a program comes to run from reset. A word that is no occupied stage register
changes nothing. -/
def State.withFetchWord (s : State) (nbits w : Nat) : State :=
  match decodeTableWord nbits w with
  | none => s
  | some i =>
    { s.updateCore 0 (fun k => { k with slots := { k.slots with e := some { instr := i, lr := 1 } } }) with
      terminated := false }

end Sys2Proof.Machine
end

