-- ==== Sys2Proof/Machine/Interface.lean ====
section
/-! DEFINITION. The block interface (42_scheduler.md R170, R171; 70_reset_and_hazards.md R202): what the environment can
do to the block before a run, the reset line, and what the block shows. -/

namespace Sys2Proof.Machine

/-- Whether a run has started: its first iteration either ends a cycle or terminates it (R152, R162), so exactly then
`cycles` is not 0 or `terminated` is set (log 12). -/
def State.runStarted (s : State) : Bool := s.terminated || s.cycles != 0

/-- A request that is "callable only before a run starts" (R171): refused later (D28). -/
def beforeRun (s : State) (t : State) : Result State :=
  if s.runStarted then .refused .runStarted else .next t

/-- The table with one known opcode's latency set; UNKNOWN has no entry. -/
def LatTable.set (l : LatTable) (op : Opcode) (n : Nat) : LatTable :=
  match op with
  | .jal => { l with jal := n }
  | .bne => { l with bne := n }
  | .add => { l with add := n }
  | .sub => { l with sub := n }
  | .swap => { l with swap := n }
  | .unknown => l

/-- `set_latency(op, n)` (R38, R170, R171): refused during a run (D28), for UNKNOWN and below 1 (D27). -/
def setLatency (op : Opcode) (n : Nat) (s : State) : Result State :=
  if op = .unknown then .refused .latencyOfUnknown
  else if n < 1 then .refused .latencyBelowOne
  else beforeRun s { s with lat := LatTable.set s.lat op n }

/-- `set_forwarding(b)` (R39, R170, R171): refused during a run (D28). -/
def setForwarding (b : Bool) (s : State) : Result State := beforeRun s { s with fwd := b }

/-- Loads PROG (R202 step 2); it is read-only once a run has started (R40, R53). DESIGN CHOICE (log 21): before a run it may
be called again and at any place in R202's order, as every call of this file may, and the last call counts. -/
def loadProgram (p : List Template) (s : State) : Result State := beforeRun s { s with prog := p }

/-- Loads PROG from program text, or refuses the text by name (R71, R184 (d)). -/
def loadText (text : List Char) (s : State) : Result State :=
  match transcribe text with
  | .ok p => loadProgram p s
  | .error e => .refused (.text e)

/-- Populates DMEM (R202 step 3) with the integers of an array, which are DMEM_INIT and whose number is DMEM_SIZE (R5, R41).
DEDUCED (log 19): one call gives the whole array, of any size, and is never refused before a run. -/
def populate (vs : List Int) (s : State) : Result State := beforeRun s { s with dmem := .ofArray vs }

/-- The `rst` line (R170): every state element takes its reset value; the parameters of the run are inputs and stay
(R200). -/
def State.resetLine (s : State) : State :=
  { s with
    cores := (List.range s.cores.length).map CoreState.construct
    cycles := 0
    stalls := 0
    terminated := false }

/-- The port `prog_rd_idx[c]` (R170): the index of PROG that the new-fetch step of core `c` reads in the cycle that starts in
this state, `none` when it reads none (log 22). It is combinational: the steps before new fetch, the Executor's among them,
decide it in the same cycle (R155). What the environment answers on `prog_rd_data[c]` is the entry of `prog` there. -/
def State.progRdIdx (s : State) (c : Nat) : Option Nat :=
  if s.terminated then none
  else
    match beforeNewFetch c s with
    | .next k => newFetchIndex c k
    | _ => none

/-- What the block shows (R170). -/
structure Outputs where
  done : Bool
  cycles : Nat
  stalls : Nat
  /-- Per core: the 32 registers, the pc and `stalled`. -/
  coreStates : List (Vector Word 32 × Word × Bool)
  /-- Per core: `prog_rd_idx`. -/
  progRdIdx : List (Option Nat)
  dmem : Memory
deriving DecidableEq, Repr

/-- The outputs of a state (R170). DESIGN CHOICE (log 25): they are the live values in every state, also while `done` is
false. -/
def State.outputs (s : State) : Outputs :=
  { done := s.terminated
    cycles := s.cycles
    stalls := s.stalls
    coreStates := s.cores.map fun k => (k.x, k.pc, k.stalled)
    progRdIdx := (List.range s.cores.length).map s.progRdIdx
    dmem := s.dmem }

/-- The clock (R170): one rising edge performs one scheduler cycle while `done = 0`; with `rst` it resets the block
(log 17). -/
def State.clockEdge (s : State) (rst : Bool) : Result State :=
  if rst then .next s.resetLine else step s

end Sys2Proof.Machine
end

