-- ==== Sys2Proof/Safety.lean ====
section
/-! DEFINITION. The terms the statements use: what is in flight on a core, what an Executor call leaves unchanged, and the
invariant of the block at a cycle boundary. -/

namespace Sys2Proof.Machine

/-- The records in a core's slots, youngest first: fetch, decode, execute, memory, writeback (R33). -/
def Slots.inFlight (z : Slots) : List Instr := [z.f, z.d, z.inExecute, z.m, z.w].filterMap id

/-- `p` is one of the producers the HazardUnit looks at: it is in execute, memory or writeback (R131). -/
def Slots.holdsProducer (z : Slots) (p : Instr) : Prop := z.inExecute = some p ∨ z.m = some p ∨ z.w = some p

/-- Execute is still counting at the start of the cycle, so that the decode step holds its instruction (R141, R159). -/
def Slots.executeCounts (z : Slots) : Prop := ∃ e, z.e = some e ∧ 1 < e.lr

/-- The pc that the execute step of core `c` leaves in the cycle that starts in `s`, where the core is `k`: moved by the
Executor alone if it is called, and `k.pc` otherwise (R155, R158). -/
def PcAfterExecute (s : State) (c : Nat) (k : CoreState) (p : Word) : Prop :=
  (k.slots.e = none ∨ k.slots.executeCounts → p = k.pc) ∧
    ∀ e u ku, k.slots.e = some e → e.lr = 1 → exec e.instr s = .next u → u.cores[c]? = some ku → p = ku.pc

/-- The same of the registers, which the Executor alone writes (R23, R100). -/
def RegsAfterExecute (s : State) (c : Nat) (k : CoreState) (x : Vector Word 32) : Prop :=
  (k.slots.e = none ∨ k.slots.executeCounts → x = k.x) ∧
    ∀ e u ku, k.slots.e = some e → e.lr = 1 → exec e.instr s = .next u → u.cores[c]? = some ku → x = ku.x

/-- The PROG entry a pc value fetches (R51). -/
def entryAt (prog : List Template) (p : Word) : Option Template := (fetchIndex p prog.length).bind (prog[·]?)

/-- Everything outside core `c` is the same in `t` as in `s`: the other cores, their number, the counters, the flag of R152
and the run's parameters; of DMEM, every index reads the same. -/
def SameOutside (c : Nat) (s t : State) : Prop :=
  (∀ d, d ≠ c → t.cores[d]? = s.cores[d]?) ∧ t.cores.length = s.cores.length ∧ t.cycles = s.cycles ∧
    t.stalls = s.stalls ∧ t.terminated = s.terminated ∧ t.prog = s.prog ∧ t.lat = s.lat ∧ t.fwd = s.fwd ∧
    ∀ a, t.dmem.read a = s.dmem.read a

/-- What every Executor call leaves as it was, core `c` being `k` in `s` and `k'` in `t`: everything outside the core, and
of the core everything but its registers and its pc. -/
def ExecutorFrame (c : Nat) (s t : State) (k k' : CoreState) : Prop :=
  t.cores[c]? = some k' ∧ k'.stalled = k.stalled ∧ k'.slots = k.slots ∧ SameOutside c s t

/-- A HazardUnit stall of core `c` in the cycle that starts in `s`: its fetch slot is occupied, so that the fetch step runs
the HazardUnit, and the unit answers true (R160). -/
def State.stallsAt (s : State) (c : Nat) : Bool :=
  match s.cores[c]? with
  | none => false
  | some k => k.slots.f.isSome && hazard k.slots s.fwd

/-- The invariant of core `c` at a cycle boundary: `stalled` only with an occupied fetch slot (R166); every record in a slot
was fetched by this core (R100) and still is the PROG entry its `origin_pc` indexes (R31, R32); the latency counter is
between 1 and the opcode's latency (R36). -/
abbrev CoreState.Inv (k : CoreState) (prog : List Template) (lat : LatTable) (c : Nat) : Prop :=
  (k.stalled = true → k.slots.f.isSome = true) ∧
    (∀ i ∈ k.slots.inFlight, i.coreId = c ∧ entryAt prog i.originPc = some i.template) ∧
    ∀ e ∈ k.slots.e, 1 ≤ e.lr ∧ e.lr ≤ latencyOf lat e.instr.opcode

/-- The invariant of the block at a cycle boundary: its parameters are not refused (R184), every core meets its own
invariant, DMEM is in its canonical form, and a terminated block has no active core (R152). -/
abbrev State.Inv (s : State) : Prop :=
  s.refusedConfig = none ∧ (∀ c, ∀ h : c < s.cores.length, (s.cores[c]).Inv s.prog s.lat c) ∧ s.dmem.wf ∧
    (s.terminated = true → s.activeCores = [])

end Sys2Proof.Machine

namespace Sys2Proof

/-- The digit characters of bases up to 16 in order of value, letters small (R75). -/
def smallDigits : List Char := ['0', '1', '2', '3', '4', '5', '6', '7', '8', '9', 'a', 'b', 'c', 'd', 'e', 'f']

/-- The same with capital letters. -/
def capitalDigits : List Char := ['0', '1', '2', '3', '4', '5', '6', '7', '8', '9', 'A', 'B', 'C', 'D', 'E', 'F']

/-- `cs` spells the digits of `n` in a base, the most significant first, each letter small or capital; leading zeros are
allowed. -/
def Spells (base : Nat) (cs : List Char) (n : Nat) : Prop :=
  ∃ ds : List Nat, ds ≠ [] ∧ (∀ d ∈ ds, d < base) ∧ n = Nat.ofDigits base ds.reverse ∧
    List.Forall₂ (fun c d => smallDigits[d]? = some c ∨ capitalDigits[d]? = some c) cs ds

/-- A line is made of these tokens: each is not empty and holds no white space, and white space, of any kind and length
(log 6), separates it from the next and may stand before the first and after the last (R71). -/
def SpacedTokens : List (List Char) → List Char → Prop
  | [], line => ∀ c ∈ line, isSpace c = true
  | t :: ts, line => ∃ before after : List Char, line = before ++ (t ++ after) ∧ (∀ c ∈ before, isSpace c = true) ∧
      t ≠ [] ∧ (∀ c ∈ t, isSpace c = false) ∧ (∀ c ∈ after.head?, isSpace c = true) ∧ SpacedTokens ts after

/-- A line holds a comment marker: one of the three of log 7 (R71). -/
abbrev HoldsMarker (line : List Char) : Prop := '#' ∈ line ∨ ';' ∈ line ∨ ['/', '/'] <:+: line

/-- `cs` is no digit string of a base: it is empty or holds a character that is no digit of the base. -/
def NoDigits (base : Nat) (cs : List Char) : Prop :=
  cs = [] ∨ ∃ c ∈ cs, c ∉ smallDigits.take base ∧ c ∉ capitalDigits.take base

end Sys2Proof
end

