-- ==== Sys2Proof/Certificates/Slice0/Obligations.lean ====
section
/-! DEFINITION. The statements for the provers, one `def Obligations.<Name> : Prop` each, in the order of OBLIGATIONS.json.
Where a clause rests on a decision the spec marks as its own (92_eei_decisions.md) or on an inference it marks as derived,
the docstring names it. All of them are about 32-bit words that wrap: the width and the wrapping are the spec's decisions
D1 and D2. -/

open Sys2Proof Sys2Proof.Machine

/-! ## Construction and reset -/

/-- R24: at construction, every register of core `c` is 0, except `x3`, which is `c`, whenever `c` is a value of a word (of
other core ids nothing is said of `x3`: log 13). -/
def Obligations.ConstructedRegisters : Prop :=
  ∀ (p : Params) (c : Nat), c < p.numCores →
    ∃ k, (State.construct p).cores[c]? = some k ∧ (c < 2 ^ 31 → (k.readReg 3).toInt = c) ∧ ∀ r, r ≠ 3 → k.readReg r = 0

/-- The rest of the state at construction: NUM_CORES cores with pc 0 (the spec's decision D3), `stalled` false and the
counters 0 (D4), every slot empty (R35, derived), `terminated` false (D35), and the parameters as they were given. -/
def Obligations.ConstructedPipelineAndCounters : Prop :=
  ∀ p : Params, (State.construct p).cores.length = p.numCores ∧ (State.construct p).cycles = 0 ∧
    (State.construct p).stalls = 0 ∧ (State.construct p).terminated = false ∧ (State.construct p).prog = p.prog ∧
    (State.construct p).lat = p.lat ∧ (State.construct p).fwd = p.fwd ∧
    (∀ a, (State.construct p).dmem.read a = p.dmemInit[a]?) ∧
    ∀ k ∈ (State.construct p).cores, k.pc = 0 ∧ k.stalled = false ∧ k.slots.f = none ∧ k.slots.d = none ∧
      k.slots.e = none ∧ k.slots.m = none ∧ k.slots.w = none

/-- The invariant holds after construction with any parameters that are not refused; `State.reset` is one such state
(log 1: its parameters are the model's choice, and the first clause does not rest on them). -/
def Obligations.ConstructedStateMeetsInvariant : Prop :=
  (∀ p : Params, p.WellFormed → (State.construct p).Inv) ∧ State.reset.Inv

/-- Every step keeps the invariant: records in flight never differ from their PROG entries (R32), each core's slots hold
that core's records (R100), the latency counter keeps its bounds (R36), `stalled` implies an occupied fetch slot (R166),
DMEM keeps its canonical form, and termination is reached only with every core inactive and stays so (R152). -/
def Obligations.StepKeepsInvariant : Prop :=
  ∀ s t : State, s.Inv → step s = .next t → t.Inv

/-! ## The Executor, one statement an opcode -/

/-- R103, JAL: with a valid `rd`, `x[rd]` becomes `origin_pc + 4` and the live pc moves by `imm` without the default +4;
without one, only the default +4. No other register changes, for any register (x0 and x3 too), any immediate, any pc;
the fetched instructions behind it (the slots) stay. The line `JAL xD imm` is its encoding. -/
def Obligations.JalLinksAndJumps : Prop :=
  (∀ (c : Nat) (o : Word) (r : RegIx) (rs1 rs2 : RegField) (imm : Word) (s : State) (k : CoreState),
    s.cores[c]? = some k →
      ∃ t k', exec (.jal c o (some r) rs1 rs2 imm) s = .next t ∧ ExecutorFrame c s t k k' ∧
        k'.readReg r = o + 4 ∧ (∀ q, q ≠ r → k'.readReg q = k.readReg q) ∧ k'.pc = k.pc + imm) ∧
  (∀ (c : Nat) (o : Word) (rs1 rs2 : RegField) (imm : Word) (s : State) (k : CoreState),
    s.cores[c]? = some k →
      ∃ t k', exec (.jal c o none rs1 rs2 imm) s = .next t ∧ ExecutorFrame c s t k k' ∧
        (∀ q, k'.readReg q = k.readReg q) ∧ k'.pc = k.pc + 4) ∧
  ∀ (r : RegIx) (v : Word), transcribeLine (joinTokens [['J', 'A', 'L'], regToken r, immSpelling v]) =
    .ok { opcode := .jal, rd := some r, rs1 := none, rs2 := none, imm := v }

/-- R104, BNE: with a valid `rd` and `rs1`, the live pc moves by `imm` when the two registers differ and by 4 when they are
equal; without both, by 4. No register is written, but the HazardUnit, forwarding being off, takes its `rd` field as a
destination. The line `BNE xA xB imm` is its encoding. -/
def Obligations.BneBranchesWhenRegistersDiffer : Prop :=
  (∀ (c : Nat) (o : Word) (a b : RegIx) (rs2 : RegField) (imm : Word) (s : State) (k : CoreState),
    s.cores[c]? = some k →
      ∃ t k', exec (.bne c o (some a) (some b) rs2 imm) s = .next t ∧ ExecutorFrame c s t k k' ∧
        (∀ q, k'.readReg q = k.readReg q) ∧
        (k.readReg a ≠ k.readReg b → k'.pc = k.pc + imm) ∧ (k.readReg a = k.readReg b → k'.pc = k.pc + 4)) ∧
  (∀ (c : Nat) (o : Word) (rd rs1 rs2 : RegField) (imm : Word) (s : State) (k : CoreState),
    s.cores[c]? = some k → rd = none ∨ rs1 = none →
      ∃ t k', exec (.bne c o rd rs1 rs2 imm) s = .next t ∧ ExecutorFrame c s t k k' ∧
        (∀ q, k'.readReg q = k.readReg q) ∧ k'.pc = k.pc + 4) ∧
  (∀ (z : Slots) (d : Instr) (n c : Nat) (o : Word) (a : RegIx) (rs1 rs2 : RegField) (imm : Word), z.d = some d →
    z.holdsProducer (.bne c o (some a) rs1 rs2 imm) → d.rs1 = some a ∨ d.rs2 = some a →
      hazardUnit z false n = (true, n + 1)) ∧
  ∀ (a b : RegIx) (v : Word), transcribeLine (joinTokens [['B', 'N', 'E'], regToken a, regToken b, immSpelling v]) =
    .ok { opcode := .bne, rd := some a, rs1 := some b, rs2 := none, imm := v }

/-- ADD (40_instructions.md, ADD): with all three fields valid, `x[rd]` becomes the sum of the two sources' values before
the write, modulo 2^32 (wrapping is the spec's decision D2); with any field ABSENT no register changes; the pc moves by 4
either way. The line `ADD xD xA xB` is its encoding. -/
def Obligations.AddWritesSum : Prop :=
  (∀ (c : Nat) (o : Word) (d a b : RegIx) (imm : Word) (s : State) (k : CoreState), s.cores[c]? = some k →
      ∃ t k', exec (.add c o (some d) (some a) (some b) imm) s = .next t ∧ ExecutorFrame c s t k k' ∧
        (k'.readReg d).toNat = ((k.readReg a).toNat + (k.readReg b).toNat) % 2 ^ 32 ∧
        (∀ q, q ≠ d → k'.readReg q = k.readReg q) ∧ k'.pc = k.pc + 4) ∧
  (∀ (c : Nat) (o : Word) (rd rs1 rs2 : RegField) (imm : Word) (s : State) (k : CoreState),
    s.cores[c]? = some k → rd = none ∨ rs1 = none ∨ rs2 = none →
      ∃ t k', exec (.add c o rd rs1 rs2 imm) s = .next t ∧ ExecutorFrame c s t k k' ∧
        (∀ q, k'.readReg q = k.readReg q) ∧ k'.pc = k.pc + 4) ∧
  ∀ d a b : RegIx, transcribeLine (joinTokens [['A', 'D', 'D'], regToken d, regToken a, regToken b]) =
    .ok { opcode := .add, rd := some d, rs1 := some a, rs2 := some b, imm := 0 }

/-- SUB (40_instructions.md, SUB): with all three fields valid, `x[rd]` becomes `x[rs1] - x[rs2]` of the values before the
write, modulo 2^32 (wrapping is the spec's decision D2, the operand order its reading of the source); with any field
ABSENT no register changes; the pc moves by 4 either way. The line `SUB xD xA xB` is its encoding. -/
def Obligations.SubWritesDifference : Prop :=
  (∀ (c : Nat) (o : Word) (d a b : RegIx) (imm : Word) (s : State) (k : CoreState), s.cores[c]? = some k →
      ∃ t k', exec (.sub c o (some d) (some a) (some b) imm) s = .next t ∧ ExecutorFrame c s t k k' ∧
        (k'.readReg d).toInt = ((k.readReg a).toInt - (k.readReg b).toInt).bmod (2 ^ 32) ∧
        (∀ q, q ≠ d → k'.readReg q = k.readReg q) ∧ k'.pc = k.pc + 4) ∧
  (∀ (c : Nat) (o : Word) (rd rs1 rs2 : RegField) (imm : Word) (s : State) (k : CoreState),
    s.cores[c]? = some k → rd = none ∨ rs1 = none ∨ rs2 = none →
      ∃ t k', exec (.sub c o rd rs1 rs2 imm) s = .next t ∧ ExecutorFrame c s t k k' ∧
        (∀ q, k'.readReg q = k.readReg q) ∧ k'.pc = k.pc + 4) ∧
  ∀ d a b : RegIx, transcribeLine (joinTokens [['S', 'U', 'B'], regToken d, regToken a, regToken b]) =
    .ok { opcode := .sub, rd := some d, rs1 := some a, rs2 := some b, imm := 0 }

/-- R107, SWAP: with `rs1` and `rs2` valid, the two registers hold each other's value before the call and no other register
changes, whatever `rd` is; with either ABSENT no register changes; the pc moves by 4. The HazardUnit, forwarding being off, takes its
`rd` field as a destination, and neither `rs1` nor `rs2`. The line `SWAP xD xA xB` is its encoding. -/
def Obligations.SwapExchangesRegisters : Prop :=
  (∀ (c : Nat) (o : Word) (rd : RegField) (a b : RegIx) (imm : Word) (s : State) (k : CoreState),
    s.cores[c]? = some k →
      ∃ t k', exec (.swap c o rd (some a) (some b) imm) s = .next t ∧ ExecutorFrame c s t k k' ∧
        k'.readReg a = k.readReg b ∧ k'.readReg b = k.readReg a ∧
        (∀ q, q ≠ a → q ≠ b → k'.readReg q = k.readReg q) ∧ k'.pc = k.pc + 4) ∧
  (∀ (c : Nat) (o : Word) (rd rs1 rs2 : RegField) (imm : Word) (s : State) (k : CoreState),
    s.cores[c]? = some k → rs1 = none ∨ rs2 = none →
      ∃ t k', exec (.swap c o rd rs1 rs2 imm) s = .next t ∧ ExecutorFrame c s t k k' ∧
        (∀ q, k'.readReg q = k.readReg q) ∧ k'.pc = k.pc + 4) ∧
  (∀ (z : Slots) (d : Instr) (n c : Nat) (o : Word) (a : RegIx) (rs1 rs2 : RegField) (imm : Word), z.d = some d →
    z.holdsProducer (.swap c o (some a) rs1 rs2 imm) → d.rs1 = some a ∨ d.rs2 = some a →
      hazardUnit z false n = (true, n + 1)) ∧
  (∀ (d : Instr) (c : Nat) (o : Word) (rd rs1 rs2 : RegField) (imm : Word),
    dependsOn d (.swap c o rd rs1 rs2 imm) = dependsOn d (.swap c o rd none none imm)) ∧
  ∀ d a b : RegIx, transcribeLine (joinTokens [['S', 'W', 'A', 'P'], regToken d, regToken a, regToken b]) =
    .ok { opcode := .swap, rd := some d, rs1 := some a, rs2 := some b, imm := 0 }

/-- UNKNOWN (40_instructions.md, UNKNOWN): the pc moves by 4 and nothing else changes, whatever its fields, but the
HazardUnit, forwarding being off, takes its `rd` field as a destination; its execute latency is 1 under every table (the
spec's decision D11); and any opcode token that is not one of the five, nor one of them
in other letter case, decodes to it. -/
def Obligations.UnknownOnlyAdvancesPc : Prop :=
  (∀ (c : Nat) (o : Word) (rd rs1 rs2 : RegField) (imm : Word) (s : State) (k : CoreState), s.cores[c]? = some k →
      ∃ t k', exec (.unknown c o rd rs1 rs2 imm) s = .next t ∧ ExecutorFrame c s t k k' ∧
        (∀ q, k'.readReg q = k.readReg q) ∧ k'.pc = k.pc + 4) ∧
  (∀ (z : Slots) (d : Instr) (n c : Nat) (o : Word) (a : RegIx) (rs1 rs2 : RegField) (imm : Word), z.d = some d →
    z.holdsProducer (.unknown c o (some a) rs1 rs2 imm) → d.rs1 = some a ∨ d.rs2 = some a →
      hazardUnit z false n = (true, n + 1)) ∧
  (∀ lat : LatTable, latencyOf lat .unknown = 1) ∧
  ∀ (t0 : List Char) (operands : List (List Char)), operands.length ≤ 3 →
    (∀ op, op ≠ .unknown → t0 ≠ opcodeToken op ∧ t0.map upperChar ≠ opcodeToken op) →
      templateOfTokens (t0 :: operands) =
        .ok { opcode := .unknown, rd := parseReg operands[0]?, rs1 := parseReg operands[1]?, rs2 := parseReg operands[2]?,
              imm := 0 }

/-! ## The Executor as a whole -/

/-- R101: the pc after every Executor call, over all instructions. -/
def Obligations.ExecutorPcCases : Prop :=
  ∀ (i : Instr) (s : State) (k : CoreState), s.cores[i.coreId]? = some k →
    ∃ t k', exec i s = .next t ∧ t.cores[i.coreId]? = some k' ∧
      k'.pc = match i with
        | .jal _ _ (some _) _ _ imm => k.pc + imm
        | .bne _ _ (some a) (some b) _ imm => if k.readReg a = k.readReg b then k.pc + 4 else k.pc + imm
        | _ => k.pc + 4

/-- The Executor's effects are "confined to the owning CoreState" (R100): whatever it answers next, only the registers and
the pc of the record's core may differ; and it answers next exactly when the block has that core (for a record of no core
the model refuses by name: log 3). -/
def Obligations.ExecutorConfinedToItsCore : Prop :=
  (∀ (i : Instr) (s t : State), exec i s = .next t →
    ∃ k k', s.cores[i.coreId]? = some k ∧ ExecutorFrame i.coreId s t k k') ∧
  (∀ (i : Instr) (s : State), i.WellFormed s.cores.length ↔ ∃ t, exec i s = .next t) ∧
  ∀ (i : Instr) (s : State), ¬ i.WellFormed s.cores.length → exec i s = .refused (.noSuchCore i.coreId)

/-! ## Encodings -/

/-- Decode and encode agree on the stage register (30_encoding.md R82, the spec's decision D33): for every block size and
every well-formed record, with every field at every value. -/
def Obligations.StageRegisterRoundTrip : Prop :=
  ∀ (numCores : Nat) (i : Instr), i.WellFormed numCores → decodeSlot numCores (encode i) = .ok (some i)

/-- Decode and encode agree on the execute slot's stage register, counter included (R82; the counter's place above `core_id`
is the model's choice, log 5). -/
def Obligations.ExecuteStageRegisterRoundTrip : Prop :=
  ∀ (numCores : Nat) (i : Instr) (lr : Nat), i.WellFormed numCores → 1 ≤ lr →
    decodeExecSlot numCores (encodeExecSlot numCores (some (i, lr))) = .ok (some (i, lr))

/-- A stage register with `valid` 0 is an empty slot whatever its other bits, and the opcode codes 101 and 110 are no
instruction (30_encoding.md R82, the spec's decision D33). -/
def Obligations.StageRegisterEmptyAndReserved : Prop :=
  (∀ numCores w, w % 2 = 0 → decodeSlot numCores w = .ok none) ∧
    ∀ numCores w, w % 2 = 1 → w / 2 % 8 = 5 ∨ w / 2 % 8 = 6 →
      decodeSlot numCores w = .error (.reservedOpcode (w / 2 % 8))

/-- Words written out in 95_test_vectors.md decode to the instructions they stand for, one of each opcode. -/
def Obligations.SampleWordsDecode : Prop :=
  decodeTableWord 56 0x00000002800211 = some (.jal 0 0 (some 1) none none 10) ∧
    decodeTableWord 56 0x3FFFFFFA008223 = some (.bne 0 0 (some 2) (some 0) none (-24)) ∧
    decodeTableWord 56 0x00000000238A15 = some (.add 0 0 (some 1) (some 2) (some 3) 0) ∧
    decodeTableWord 56 0x00000000259A77 = some (.sub 0 0 (some 7) (some 6) (some 5) 0) ∧
    decodeTableWord 56 0x00000000269609 = some (.swap 0 0 (some 0) (some 5) (some 6) 0) ∧
    decodeTableWord 56 0x0000000000000F = some (.unknown 0 0 none none none 0)

/-- Text: the canonical line of a template (R80; the spelling of templates that R80 leaves out is log 23) transcribes to that
template, for every template a line can give, with every operand at every value (30_encoding.md R74 to R76). -/
def Obligations.ProgramLineRoundTrip : Prop :=
  ∀ t : Template, t.Textual → transcribeLine (encodeLine t) = .ok t

/-- Every template the transcriber gives has the shape of R76: a shared operand token is a register or a number, never
both, and the opcodes without an immediate get 0 (the spec's decisions D14 and D34). -/
def Obligations.TranscribedTemplatesAreTextual : Prop :=
  ∀ (line : List Char) (t : Template), transcribeLine line = .ok t → t.Textual

/-- Register tokens (30_encoding.md R74): `x` and decimal digits with any leading zeros is the index (the spec's decision
D16); a value above 31, a token with a character that is no decimal digit after the `x`, a token that does not begin with
`x`, a bare `x`, an empty and a missing token are ABSENT. -/
def Obligations.RegisterTokenParsing : Prop :=
  (∀ (n : Nat) (r : RegIx), parseReg (some ('x' :: (List.replicate n '0' ++ decimal 1 r.val))) = some r) ∧
    (∀ (ds : List Char) (v : Nat), digits 10 ds = some v → 32 ≤ v → parseReg (some ('x' :: ds)) = none) ∧
    (∀ (ds : List Char) (v : Nat), Spells 10 ds v →
      (∀ r : RegIx, r.val = v → parseReg (some ('x' :: ds)) = some r) ∧ (32 ≤ v → parseReg (some ('x' :: ds)) = none)) ∧
    (∀ ds : List Char, NoDigits 10 ds → parseReg (some ('x' :: ds)) = none) ∧
    (∀ (c : Char) (ds : List Char), c ≠ 'x' → parseReg (some (c :: ds)) = none) ∧
    parseReg (some ['x']) = none ∧ parseReg (some []) = none ∧ parseReg none = none

/-- Immediates (30_encoding.md R75; the details are the spec's decision D17). A word's decimal spelling parses to the word.
Digits of the base, `Spells` giving their value without the model's own parser, parse to it: in hexadecimal and binary after
their prefixes, and in decimal with the sign `+` or `-` or none, leading zeros allowed; a value outside the range of a word
is refused. What is no digit string of its base, a sign before a prefix among it, and a missing token give 0. -/
def Obligations.ImmediateParsing : Prop :=
  (∀ v : Word, parseImm (some (immSpelling v)) = .ok v) ∧
    (∀ (n m : Nat), 0 < m → m ≤ 2147483648 →
      parseImm (some ('-' :: (List.replicate n '0' ++ decimal 9 m))) = .ok (BitVec.ofInt 32 (-(m : Int)))) ∧
    (∀ (ds : List Char) (v : Nat) (x : Char), (x = 'x' ∨ x = 'X') ∧ Spells 16 ds v ∨ (x = 'b' ∨ x = 'B') ∧ Spells 2 ds v →
      parseImm (some ('0' :: x :: ds)) =
        if v ≤ 2147483647 then .ok (BitVec.ofNat 32 v) else .error (.immOutOfRange v)) ∧
    (∀ (ds : List Char) (v : Nat), Spells 10 ds v →
      (parseImm (some ds) = if v ≤ 2147483647 then .ok (BitVec.ofNat 32 v) else .error (.immOutOfRange v)) ∧
      (parseImm (some ('+' :: ds)) = if v ≤ 2147483647 then .ok (BitVec.ofNat 32 v) else .error (.immOutOfRange v)) ∧
      parseImm (some ('-' :: ds)) =
        if v ≤ 2147483648 then .ok (BitVec.ofInt 32 (-(v : Int))) else .error (.immOutOfRange (-(v : Int)))) ∧
    (∀ (ds : List Char) (x : Char), (x = 'x' ∨ x = 'X') ∧ NoDigits 16 ds ∨ (x = 'b' ∨ x = 'B') ∧ NoDigits 2 ds →
      parseImm (some ('0' :: x :: ds)) = .ok 0) ∧
    (∀ (sign : Char) (ds : List Char), sign = '+' ∨ sign = '-' → NoDigits 10 ds → parseImm (some (sign :: ds)) = .ok 0) ∧
    (∀ (a : Char) (cs : List Char), a ≠ '+' → a ≠ '-' →
      (∀ x ∈ cs.head?, a = '0' → x ≠ 'x' ∧ x ≠ 'X' ∧ x ≠ 'b' ∧ x ≠ 'B') → NoDigits 10 (a :: cs) →
      parseImm (some (a :: cs)) = .ok 0) ∧
    (∀ t : List Char, parseNumber t = none → parseImm (some t) = .ok 0) ∧ parseImm none = .ok 0

/-- The transcriber refuses by name a line with a comma, a line with a comment marker (which these are is log 7), a line with
more than four tokens, and one whose opcode token is a known one in other letter case (30_encoding.md R71 and R73; the spec's
decisions D15 and D18). A line without comma and marker is read by its tokens alone, however much white space separates them
(which characters that is, is log 6). Which name is reported where several grounds meet (the comma before any other, then the
marker, the number of tokens before letter case, letter case before the range of an immediate) is the model's choice,
log 15. -/
def Obligations.TranscriberRefusals : Prop :=
  (∀ line : List Char, ',' ∈ line → transcribeLine line = .error .comma) ∧
    (∀ line : List Char, ',' ∉ line → HoldsMarker line → transcribeLine line = .error .commentMarker) ∧
    (∀ ts : List (List Char), 4 < ts.length → templateOfTokens ts = .error (.tooManyTokens ts.length)) ∧
    (∀ (op : Opcode) (t0 : List Char) (operands : List (List Char)), op ≠ .unknown → operands.length ≤ 3 →
      t0 ≠ opcodeToken op → t0.map upperChar = opcodeToken op →
        templateOfTokens (t0 :: operands) = .error (.caseVariant op)) ∧
    ∀ (line : List Char) (ts : List (List Char)), ',' ∉ line → ¬ HoldsMarker line → SpacedTokens ts line →
      transcribeLine line = templateOfTokens ts ∧
      (4 < ts.length → transcribeLine line = .error (.tooManyTokens ts.length)) ∧
      ∀ (op : Opcode) (t0 : List Char) (operands : List (List Char)), ts = t0 :: operands → op ≠ .unknown →
        operands.length ≤ 3 → t0 ≠ opcodeToken op → t0.map upperChar = opcodeToken op →
          transcribeLine line = .error (.caseVariant op)

/-! ## Fetch and the units -/

/-- A pc indexes instruction `j` of a program of `n` exactly when it lies in [4j, 4j+3] and `j < n`; a negative pc and a pc
beyond the program index nothing (20_memory.md R51 and R57; floor and the negative case are the spec's decision D7). -/
def Obligations.FetchIndexExactly : Prop :=
  ∀ (p : Word) (n j : Nat), fetchIndex p n = some j ↔ j < n ∧ 4 * (j : Int) ≤ p.toInt ∧ p.toInt ≤ 4 * (j : Int) + 3

/-- New fetch (42_scheduler.md R161, 10_state.md R31): in an empty fetch slot of a core that is not stalled it puts the
entry at the live pc, with that pc as `origin_pc` and the fetching core as `core_id`, and adds 4 to the pc; with the slot
filled, the core stalled, or nothing at the pc, it does nothing. -/
def Obligations.NewFetchBuildsRecord : Prop :=
  ∀ (c : Nat) (w : CycleWork) (k : CoreState), w.st.cores[c]? = some k →
    (k.stalled = true ∨ w.nxt.f ≠ none ∨ entryAt w.st.prog k.pc = none → newFetchStep c w = w) ∧
    ∀ t : Template, k.stalled = false → w.nxt.f = none → entryAt w.st.prog k.pc = some t →
      ∃ i k', (newFetchStep c w).nxt = { w.nxt with f := some i } ∧ i.template = t ∧ i.coreId = c ∧ i.originPc = k.pc ∧
        (newFetchStep c w).st.cores[c]? = some k' ∧ k' = { k with pc := k.pc + 4 } ∧
        SameOutside c w.st (newFetchStep c w).st ∧ (newFetchStep c w).exBusy = w.exBusy

/-- The HazardUnit (41_pipeline_units.md R131 to R133; the empty decode slot is the spec's decision D12): it stalls, and
counts one, exactly when forwarding is off and the decode instruction names as `rs1` or `rs2` a valid `rd` of an instruction
in execute, memory or writeback, whatever the opcodes. -/
def Obligations.HazardUnitAnswer : Prop :=
  ∀ (z : Slots) (fwd : Bool) (n : Nat),
    ((hazardUnit z fwd n).1 = true ↔
      fwd = false ∧ ∃ d p r, z.d = some d ∧ z.holdsProducer p ∧ p.rd = some r ∧
        (d.rs1 = some r ∨ d.rs2 = some r)) ∧
    (hazardUnit z fwd n).2 = if (hazardUnit z fwd n).1 then n + 1 else n

/-- R134: with `FWD = true` the HazardUnit never stalls and never changes `stalls`; so no step changes the counter. -/
def Obligations.ForwardingSwitchesHazardOff : Prop :=
  (∀ (z : Slots) (n : Nat), hazardUnit z true n = (false, n)) ∧
    ∀ s t : State, s.fwd = true → step s = .next t → t.stalls = s.stalls

/-- The ForwardingUnit is the identity on every instruction (41_pipeline_units.md R137, which the spec derives from R136). -/
def Obligations.ForwardingUnitIsIdentity : Prop :=
  ∀ (z : Slots) (d : Instr), forward z d = d

/-- 41_pipeline_units.md R139: when the decode instruction moves to execute, which it does unless execute is still
counting, its counter is set to the table's latency of its opcode, 1 for UNKNOWN (the spec's decision D11). -/
def Obligations.ExecuteEntryLooksUpLatency : Prop :=
  (∀ lat : LatTable, latencyOf lat .jal = lat.jal ∧ latencyOf lat .bne = lat.bne ∧ latencyOf lat .add = lat.add ∧
    latencyOf lat .sub = lat.sub ∧ latencyOf lat .swap = lat.swap ∧ latencyOf lat .unknown = 1) ∧
  ∀ (s t : State) (c : Nat) (k k' : CoreState) (d : Instr), step s = .next t → s.terminated = false →
    s.cores[c]? = some k → t.cores[c]? = some k' → k.slots.d = some d → (∀ e ∈ k.slots.e, e.lr ≤ 1) →
      k'.slots.e = some { instr := d, lr := latencyOf s.lat d.opcode }

/-! ## The scheduler -/

/-- A step runs the decoded instruction. When a word decodes to the record in core `c`'s execute slot with its counter at
1, the core step of `c` is the Executor on that record, on the live state, followed by the core's decode, fetch and
new-fetch steps; on a block of one core that is the whole step, with the cycle counted (R140, R158, R163). -/
def Obligations.StepRunsDecodedInstruction : Prop :=
  (∀ (s : State) (c w : Nat) (k : CoreState) (i : Instr), s.cores[c]? = some k →
    decodeSlot s.cores.length w = .ok (some i) → k.slots.e = some { instr := i, lr := 1 } →
      coreStep c s = chain (exec i s) fun t =>
        .next (commitSlots c (newFetchStep c (fetchStep c k.slots (decodeStep k.slots
          { st := t, nxt := { f := none, d := none, e := none, m := some i, w := k.slots.m }, exBusy := false }))))) ∧
  ∀ (s : State) (w : Nat) (k : CoreState) (i : Instr), s.cores = [k] → s.lat.WellFormed → s.terminated = false →
    decodeSlot 1 w = .ok (some i) → k.slots.e = some { instr := i, lr := 1 } →
      step s = chain (coreStep 0 s) fun t => .next { t with cycles := t.cycles + 1 }

/-- No instruction is ever discarded and none overtakes another (42_scheduler.md R164, which the spec derives from R156 to
R163): in a cycle, what is in flight on an active core is what was, less the instruction that retires from writeback, behind
at most one newly fetched record of PROG; and the instruction in memory afterwards is the one execute finished. -/
def Obligations.NothingDiscardedNothingOvertaken : Prop :=
  ∀ (s t : State) (c : Nat) (k k' : CoreState), step s = .next t → s.terminated = false → s.coreActive c = true →
    s.cores[c]? = some k → t.cores[c]? = some k' →
      (∃ new : List Instr, new.length ≤ 1 ∧ (∀ i ∈ new, i.coreId = c ∧ entryAt s.prog i.originPc = some i.template) ∧
        k'.slots.inFlight = new ++ { k.slots with w := none }.inFlight) ∧
      k'.slots.w = k.slots.m ∧ k'.slots.m = (k.slots.e.filter fun e => decide (e.lr ≤ 1)).map ExecSlot.instr

/-- The structural hold (42_scheduler.md R166 (c), 70_reset_and_hazards.md R208; the spec's decision D9): while execute is
counting, an instruction in decode stays, the counter goes down by one, and if the fetch slot is occupied too it stays, the
pc does not move and no register changes. -/
def Obligations.StructuralHold : Prop :=
  ∀ (s t : State) (c : Nat) (k k' : CoreState) (e : ExecSlot) (d : Instr), s.Inv → step s = .next t →
    s.terminated = false → s.cores[c]? = some k → t.cores[c]? = some k' → k.slots.e = some e → 1 < e.lr →
    k.slots.d = some d →
      k'.slots.d = some d ∧ k'.slots.e = some { instr := e.instr, lr := e.lr - 1 } ∧ k'.slots.m = none ∧ k'.x = k.x ∧
        ∀ f, k.slots.f = some f → k'.slots.f = some f ∧ k'.pc = k.pc

/-- The counter `stalls` grows in a cycle by the number of active cores whose fetch step has the HazardUnit stall; structural
holds are not counted (42_scheduler.md R168, derived; that the unit also runs during a hold is the spec's decision D10). -/
def Obligations.StallsCountHazardStalls : Prop :=
  ∀ s t : State, step s = .next t → s.terminated = false →
    t.stalls = s.stalls + (s.activeCores.filter s.stallsAt).length

/-- The cycle counter and termination (42_scheduler.md R151 to R153 and R162; the flag is the spec's decision D35): a step
with no active core sets `terminated` and changes nothing else; with an active core it counts one cycle and does not
terminate; a core is active exactly when a slot is occupied or its pc indexes an entry. -/
def Obligations.CycleCountAndTermination : Prop :=
  (∀ (s : State) (c : Nat), s.coreActive c = true ↔
    ∃ k, s.cores[c]? = some k ∧ (k.slots.inFlight ≠ [] ∨ entryAt s.prog k.pc ≠ none)) ∧
  ∀ s : State, s.refusedConfig = none → s.terminated = false →
    ((∀ c, s.coreActive c = false) → step s = .next { s with terminated := true }) ∧
    ∀ (c : Nat) (t : State), s.coreActive c = true → step s = .next t → t.cycles = s.cycles + 1 ∧ t.terminated = false

/-- R53: the instruction space is read-only during a run, so every fetch of an index returns the same entry. (With it, for
any number of steps: LAT, FWD and the number of cores stay, and every index of DMEM reads as at the start.) -/
def Obligations.RunConstantsNeverChange : Prop :=
  ∀ (n : Nat) (s t : State), Host.Core.run Sys2Proof.core n s = .next t →
    t.prog = s.prog ∧ (∀ p, entryAt t.prog p = entryAt s.prog p) ∧ t.lat = s.lat ∧ t.fwd = s.fwd ∧
      t.cores.length = s.cores.length ∧ ∀ a, t.dmem.read a = s.dmem.read a

/-- Termination is final: "a terminated block makes no further change to any state", after any number of steps
(42_scheduler.md R152, the spec's decision D35). -/
def Obligations.TerminationIsFinal : Prop :=
  ∀ (n : Nat) (s : State), s.refusedConfig = none → s.terminated = true → Host.Core.run Sys2Proof.core n s = .next s

/-- An inactive core is left unchanged, and never becomes active again (42_scheduler.md R153 (b); 60_exceptions.md R190,
derived), however many steps the block takes. -/
def Obligations.InactiveCoreStaysAsItIs : Prop :=
  ∀ (n : Nat) (s t : State) (c : Nat), s.Inv → s.coreActive c = false → Host.Core.run Sys2Proof.core n s = .next t →
    t.cores[c]? = s.cores[c]? ∧ t.coreActive c = false

/-- The cores are fully independent (42_scheduler.md R167): what core `c` is after any number of steps depends only on what
it was and on PROG, LAT and FWD, not on the other cores, their number, the counters or DMEM. -/
def Obligations.CoresAreIndependent : Prop :=
  ∀ (n : Nat) (s s' t t' : State) (c : Nat), s.Inv → s'.Inv → s.prog = s'.prog → s.lat = s'.lat → s.fwd = s'.fwd →
    s.cores[c]? = s'.cores[c]? → Host.Core.run Sys2Proof.core n s = .next t →
    Host.Core.run Sys2Proof.core n s' = .next t' → t.cores[c]? = t'.cores[c]?

/-- In a cycle in which no occupied fetch slot meets a hazard, forwarding makes no difference (90_conflicts.md C10,
41_pipeline_units.md R137): the step with FWD on is the step with FWD off. -/
def Obligations.ForwardingOnlyRemovesStalls : Prop :=
  ∀ s t : State, s.fwd = false → (∀ c, s.stallsAt c = false) → step s = .next t →
    step { s with fwd := true } = .next { t with fwd := true }

/-- An instruction in execute with counter `lr` stays there for `lr - 1` further cycles, the counter going down by one each,
and is in memory after `lr` cycles: a latency of N occupies execute for exactly N cycles (41_pipeline_units.md R140 and
R142; 90_conflicts.md C1). -/
def Obligations.LatencyOccupiesExecuteExactly : Prop :=
  ∀ (s : State) (c : Nat) (k : CoreState) (e : ExecSlot), s.Inv → s.terminated = false → s.cores[c]? = some k →
    k.slots.e = some e →
      (∀ n, n < e.lr → ∃ t k', Host.Core.run Sys2Proof.core n s = .next t ∧ t.cores[c]? = some k' ∧
        k'.slots.e = some { instr := e.instr, lr := e.lr - n }) ∧
      ∃ t k', Host.Core.run Sys2Proof.core e.lr s = .next t ∧ t.cores[c]? = some k' ∧ k'.slots.m = some e.instr

/-- The new fetch of a cycle reads the pc as the Executor left it in that cycle (42_scheduler.md R155, the spec's decision
D8; 70_reset_and_hazards.md R206). When a JAL or a BNE executes and the core does not stall, the entry at the pc it leaves is
fetched in the same cycle, the pc ends 4 beyond it and the instruction of the fetch slot moves to decode: for a JAL with a
valid `rd` that pc is the target, for a BNE with two valid registers the target when they differ and 4 more when they are
equal. The last clause says the same of every instruction, in terms of the Executor's call. -/
def Obligations.JumpTargetFetchedInSameCycle : Prop :=
  (∀ (s : State) (c : Nat) (k : CoreState) (o : Word) (r : RegIx) (rs1 rs2 : RegField) (imm : Word) (tm : Template),
    s.Inv → s.terminated = false → s.cores[c]? = some k →
    k.slots.e = some { instr := .jal c o (some r) rs1 rs2 imm, lr := 1 } → s.stallsAt c = false →
    entryAt s.prog (k.pc + imm) = some tm →
      ∃ t k', step s = .next t ∧ t.cores[c]? = some k' ∧ k'.slots.f = some (fetchRecord c (k.pc + imm) tm) ∧
        k'.pc = k.pc + imm + 4 ∧ k'.readReg r = o + 4 ∧ k'.slots.d = k.slots.f) ∧
  (∀ (s : State) (c : Nat) (k : CoreState) (o : Word) (a b : RegIx) (rs2 : RegField) (imm target : Word) (tm : Template),
    s.Inv → s.terminated = false → s.cores[c]? = some k →
    k.slots.e = some { instr := .bne c o (some a) (some b) rs2 imm, lr := 1 } → s.stallsAt c = false →
    target = (if k.readReg a = k.readReg b then k.pc + 4 else k.pc + imm) → entryAt s.prog target = some tm →
      ∃ t k', step s = .next t ∧ t.cores[c]? = some k' ∧ k'.slots.f = some (fetchRecord c target tm) ∧
        k'.pc = target + 4 ∧ k'.x = k.x ∧ k'.slots.d = k.slots.f) ∧
  ∀ (s u : State) (c : Nat) (k ku : CoreState) (i : Instr) (tm : Template),
    s.Inv → s.terminated = false → s.cores[c]? = some k → k.slots.e = some { instr := i, lr := 1 } →
    s.stallsAt c = false → exec i s = .next u → u.cores[c]? = some ku → entryAt s.prog ku.pc = some tm →
      ∃ t k', step s = .next t ∧ t.cores[c]? = some k' ∧ k'.slots.f = some (fetchRecord c ku.pc tm) ∧
        k'.pc = ku.pc + 4 ∧ k'.x = ku.x ∧ k'.slots.d = k.slots.f

/-- The first cycle after construction with a program (70_reset_and_hazards.md R201, derived): every core has fetched entry
0 with `origin_pc` 0, its pc is 4, and nothing else of it has changed; one cycle and no stall are counted. -/
def Obligations.FirstCycleFetchesEntryZero : Prop :=
  ∀ (p : Params) (tm : Template) (rest : List Template), p.WellFormed → p.prog = tm :: rest →
    ∃ t, step (State.construct p) = .next t ∧ t.cycles = 1 ∧ t.stalls = 0 ∧ t.terminated = false ∧
      t.cores = (List.range p.numCores).map fun c =>
        { CoreState.construct c with
          pc := 4
          slots := { f := some (fetchRecord c 0 tm), d := none, e := none, m := none, w := none } }

/-- A run with an empty program has no active core: it terminates at once with `cycles = 0` and `stalls = 0`, every core in
its reset state (42_scheduler.md R162, 70_reset_and_hazards.md R201). -/
def Obligations.EmptyProgramTerminatesAtOnce : Prop :=
  ∀ p : Params, p.WellFormed → p.prog = [] →
    ∃ t, step (State.construct p) = .next t ∧ t.terminated = true ∧ t.cycles = 0 ∧ t.stalls = 0 ∧
      t.cores = (List.range p.numCores).map CoreState.construct

/-- No condition in the component is fatal (60_exceptions.md R180): every state that meets the invariant has a next state,
and so has every run of any length from it. -/
def Obligations.EveryRunGoesOn : Prop :=
  ∀ (n : Nat) (s : State), s.Inv → ∃ t, Host.Core.run Sys2Proof.core n s = .next t

/-! ## The block interface -/

/-- Refused configurations (60_exceptions.md R184 (c); the spec's decisions D21 and D27): the model gives a run without
cores, or with a latency below 1, no meaning; any other parameters are not refused. That every step of such a state refuses,
under these names and `noCores` first, is the model's choice, log 18. -/
def Obligations.RefusedConfigurations : Prop :=
  (∀ s : State, s.cores = [] → step s = .refused .noCores) ∧
    (∀ s : State, s.cores ≠ [] → ¬ s.lat.WellFormed → step s = .refused .latencyBelowOne) ∧
    ∀ p : Params, p.WellFormed ↔ (State.construct p).refusedConfig = none

/-- Configuration has force only before a run (42_scheduler.md R171). Before it, `set_latency` of a known opcode with a
positive count and `set_forwarding` set their parameter and nothing else; `set_latency` for UNKNOWN and for 0 is refused
(60_exceptions.md R184 (c), the spec's decision D27). Loading a program and populating DMEM (70_reset_and_hazards.md R202) set
PROG and DMEM, whatever was there; that such calls may be repeated and made in any order is the model's choice, log 21. That
populating takes the whole array, its size with its integers, and is never refused before a run is the model's reading, log 19.
Loading program text sets PROG to its transcription or is refused under the text's own reason (R184 (d)). Once a step has been
taken, the calls that had an effect before are refused (R184 (c), the spec's decision D28; when a run has started, that loading
and populating are refused with the others, and that a refused text keeps its own reason then, is the model's reading,
log 12). -/
def Obligations.ConfigurationOnlyBeforeRun : Prop :=
  (∀ (op : Opcode) (n : Nat) (b : Bool) (s : State), s.cycles = 0 → s.terminated = false →
    (op ≠ .unknown → 1 ≤ n → ∃ l, setLatency op n s = .next { s with lat := l } ∧ latencyOf l op = n ∧
      ∀ q, q ≠ op → latencyOf l q = latencyOf s.lat q) ∧
    setLatency .unknown n s = .refused .latencyOfUnknown ∧
    (op ≠ .unknown → setLatency op 0 s = .refused .latencyBelowOne) ∧
    setForwarding b s = .next { s with fwd := b } ∧
    (∀ p : List Template, loadProgram p s = .next { s with prog := p }) ∧
    (∀ (text : List Char) (p : List Template), transcribe text = .ok p → loadText text s = .next { s with prog := p }) ∧
    (∀ (text : List Char) (e : TextRefusal), transcribe text = .error e → loadText text s = .refused (.text e)) ∧
    ∀ vs : List Int, ∃ m, populate vs s = .next { s with dmem := m } ∧ ∀ a, m.read a = vs[a]?) ∧
  ∀ (op : Opcode) (n : Nat) (b : Bool) (p : List Template) (s t : State), step s = .next t →
    (op ≠ .unknown → 1 ≤ n → setLatency op n t = .refused .runStarted) ∧ setForwarding b t = .refused .runStarted ∧
      loadProgram p t = .refused .runStarted ∧ (∀ vs : List Int, populate vs t = .refused .runStarted) ∧
      (∀ (text : List Char) (q : List Template), transcribe text = .ok q → loadText text t = .refused .runStarted) ∧
      ∀ (text : List Char) (e : TextRefusal), transcribe text = .error e → loadText text t = .refused (.text e)

/-- The clock and the reset line (42_scheduler.md R170, the spec's decision D19): a rising edge with `rst` gives the
constructed state again, after any number of steps from construction (that the run's parameters stay is log 8), and an edge
without it is one step (log 17). -/
def Obligations.ResetLineReconstructs : Prop :=
  (∀ (n : Nat) (p : Params) (t : State), Host.Core.run Sys2Proof.core n (State.construct p) = .next t →
    t.resetLine = State.construct p ∧ t.clockEdge true = .next (State.construct p)) ∧
  ∀ s : State, s.clockEdge false = step s

/-- The ranges the cores own tile the data memory: they begin at 0, each begins where the one before ends, the last ends at
DMEM_SIZE, and each index is in exactly one (20_memory.md R58; the rounding is the spec's decision D22). -/
def Obligations.OwnedRangesTileMemory : Prop :=
  ∀ (m : Memory) (numCores : Nat), 1 ≤ numCores →
    (m.ownedRange numCores 0).1 = 0 ∧ (m.ownedRange numCores (numCores - 1)).2 = m.size ∧
      (∀ c, (m.ownedRange numCores c).2 = (m.ownedRange numCores (c + 1)).1) ∧
      ∀ a, a < m.size → ∃! c, c < numCores ∧ (m.ownedRange numCores c).1 ≤ a ∧ a < (m.ownedRange numCores c).2

/-! ## Further statements of the scheduler, the text and the interface -/

/-- What the fetch step does (42_scheduler.md R160, 41_pipeline_units.md R135, 70_reset_and_hazards.md R207; the structural
hold is the spec's decision D9). A HazardUnit stall keeps the fetch slot, sets `stalled` and lets no new fetch happen: the pc
is moved by the Executor at most, while the dependent instruction in decode moves on unless execute is counting. With the
slot occupied and no stall, `stalled` becomes false and the instruction moves to decode, unless decode is held. With the slot
empty, `stalled` stays and nothing enters decode. In every case the registers are those the execute step leaves, since the
Executor alone writes them (10_state.md R23, 40_instructions.md R100). That the instruction moves into an empty decode slot
while execute is counting, where R208's words have it stay, is the model's reading, log 11. -/
def Obligations.FetchStepStallsOrMoves : Prop :=
  ∀ (s t : State) (c : Nat) (k k' : CoreState), s.Inv → step s = .next t → s.terminated = false →
    s.cores[c]? = some k → t.cores[c]? = some k' →
      (s.stallsAt c = true → k'.slots.f = k.slots.f ∧ k'.stalled = true ∧ PcAfterExecute s c k k'.pc ∧
        (¬ k.slots.executeCounts → k'.slots.d = none ∧
          ∀ d, k.slots.d = some d → k'.slots.e = some { instr := d, lr := latencyOf s.lat d.opcode })) ∧
      (∀ f, k.slots.f = some f → s.stallsAt c = false → k'.stalled = false ∧
        (k.slots.executeCounts ∧ k.slots.d ≠ none → k'.slots.f = some f ∧ k'.slots.d = k.slots.d) ∧
        (¬ (k.slots.executeCounts ∧ k.slots.d ≠ none) → k'.slots.d = some f)) ∧
      (k.slots.f = none → k'.stalled = k.stalled ∧ (¬ k.slots.executeCounts → k'.slots.d = none)) ∧
      RegsAfterExecute s c k k'.x

/-- While execute is counting and the decode or the fetch slot is empty. The words of 70_reset_and_hazards.md R208 have an
instruction in fetch stay, no new fetch and a pc that does not move; the pseudocode of 42_scheduler.md R160 and R161 moves the
fetch slot into an empty decode slot and fills an empty fetch slot. That the latter holds is the model's reading, log 11: an
instruction in decode stays, one in fetch moves into an empty decode slot, the entry at the pc, if there is one, is fetched
and moves the pc by 4, and no register changes. -/
def Obligations.StructuralHoldWithEmptySlot : Prop :=
  ∀ (s t : State) (c : Nat) (k k' : CoreState) (e : ExecSlot), s.Inv → step s = .next t → s.terminated = false →
    s.cores[c]? = some k → t.cores[c]? = some k' → k.slots.e = some e → 1 < e.lr → k.slots.f = none ∨ k.slots.d = none →
      k'.slots.d = k.slots.d.or k.slots.f ∧ k'.slots.e = some { instr := e.instr, lr := e.lr - 1 } ∧ k'.slots.m = none ∧
        k'.x = k.x ∧ k'.stalled = false ∧
        (∀ tm, entryAt s.prog k.pc = some tm → k'.slots.f = some (fetchRecord c k.pc tm) ∧ k'.pc = k.pc + 4) ∧
        (entryAt s.prog k.pc = none → k'.slots.f = none ∧ k'.pc = k.pc)

/-- The way of an instruction through the pipeline (42_scheduler.md R165, derived). Let `s` be the state at the end of the
cycle t that fetched `i`, and `L` its latency. Meeting no stall and no structural hold in fetch (cycle t+1) and none in decode
(cycle t+2), it is in decode one step later, in execute two steps later with its counter at `L`, counts there, executes in
step 2+L, after which it is in memory, is in writeback after step 3+L, and leaves writeback in step 4+L. That a counting execute
slot holds the fetch slot only behind an occupied decode slot is the model's reading, log 11. -/
def Obligations.PathThroughThePipeline : Prop :=
  ∀ (s t1 : State) (c : Nat) (k k1 : CoreState) (i : Instr), s.Inv → s.terminated = false → s.cores[c]? = some k →
    k.slots.f = some i → s.stallsAt c = false → ¬ (k.slots.executeCounts ∧ k.slots.d ≠ none) → step s = .next t1 →
    t1.cores[c]? = some k1 → ¬ k1.slots.executeCounts →
      k1.slots.d = some i ∧
      (∀ n, n < latencyOf s.lat i.opcode → ∃ t k', Host.Core.run Sys2Proof.core (2 + n) s = .next t ∧
        t.cores[c]? = some k' ∧ k'.slots.e = some { instr := i, lr := latencyOf s.lat i.opcode - n }) ∧
      ∃ te tm tw tr : State, ∃ ke km kw kr : CoreState,
        Host.Core.run Sys2Proof.core (1 + latencyOf s.lat i.opcode) s = .next te ∧ step te = .next tm ∧
        step tm = .next tw ∧ step tw = .next tr ∧ te.cores[c]? = some ke ∧ tm.cores[c]? = some km ∧
        tw.cores[c]? = some kw ∧ tr.cores[c]? = some kr ∧
        (∃ u ku, exec i te = .next u ∧ u.cores[c]? = some ku ∧ km.x = ku.x) ∧
        km.slots.m = some i ∧ kw.slots.w = some i ∧ kr.slots.w = kw.slots.m

/-- A run of one instruction on one core (42_scheduler.md R165 and 70_reset_and_hazards.md R210, derived): with latency `L` it
takes 5+L cycles and no stall, and the iteration after them terminates. The premise leaves out only a JAL
that jumps to itself, which is fetched again (the live pc at its execution is 4, R102); a BNE finds equal registers. -/
def Obligations.LoneInstructionRun : Prop :=
  ∀ (p : Params) (tm : Template), p.WellFormed → p.numCores = 1 → p.prog = [tm] →
    (tm.opcode = .jal → tm.rd ≠ none → entryAt [tm] (4 + tm.imm) = none) →
      ∃ t, Host.Core.run Sys2Proof.core (5 + latencyOf p.lat tm.opcode) (State.construct p) = .next t ∧
        t.cycles = 5 + latencyOf p.lat tm.opcode ∧ t.stalls = 0 ∧ t.terminated = false ∧
        step t = .next { t with terminated := true }

/-- Program text (30_encoding.md R71, R78): the entries of PROG are the non-empty lines in order, each transcribed by itself,
so that entry k is the k-th non-empty line; a text is refused only for one of its non-empty lines; and the canonical lines of
templates, one a line, transcribe to those templates. That lines end at a line feed is log 6, that a line of white space only
counts as one of the non-empty lines, with an index of PROG, is the model's reading, log 9, and how templates that R80 does
not spell are spelled is log 23. -/
def Obligations.ProgramTextEntries : Prop :=
  (∀ ls : List (List Char), (∀ l ∈ ls, '\n' ∉ l) →
    (∀ prog, transcribe (['\n'].intercalate ls) = .ok prog ↔
      (ls.filter fun l => !l.isEmpty).map transcribeLine = prog.map .ok) ∧
    ∀ e, transcribe (['\n'].intercalate ls) = .error e → ∃ l ∈ ls, l ≠ [] ∧ transcribeLine l = .error e) ∧
  ∀ ts : List Template, (∀ t ∈ ts, t.Textual) → transcribe (['\n'].intercalate (ts.map encodeLine)) = .ok ts

/-- A line of white space only is an entry, the UNKNOWN without operands. The spec names no such line; that it counts as one
of the non-empty lines of 30_encoding.md R71 and R78 is the model's reading, log 9, and which characters are white space is
log 6. -/
def Obligations.WhiteSpaceLineIsUnknown : Prop :=
  ∀ line : List Char, line ≠ [] → (∀ c ∈ line, isSpace c = true) →
    transcribeLine line = .ok { opcode := .unknown, rd := none, rs1 := none, rs2 := none, imm := 0 }

/-- What the block shows (42_scheduler.md R170, the spec's decision D19). After any number of steps from construction, `done`
is `terminated`, the counters and each core's registers, pc and `stalled` are the state's, and `dmem` holds DMEM_INIT. The
outputs show this in every state and not only when `done` is true (the model's choice, log 25). The port `prog_rd_idx[c]`
gives, before a step, the index that the step's new fetch of core `c` reads: the core then holds the record of that entry in
its fetch slot and its pc has moved 4 beyond; where the port gives none (how it says so is the model's choice, log 22),
nothing is fetched. -/
def Obligations.BlockOutputs : Prop :=
  (∀ (n : Nat) (p : Params) (t : State), Host.Core.run Sys2Proof.core n (State.construct p) = .next t →
    t.outputs.done = t.terminated ∧ t.outputs.cycles = t.cycles ∧ t.outputs.stalls = t.stalls ∧
      (∀ c : Nat, t.outputs.coreStates[c]? = t.cores[c]?.map fun k : CoreState => (k.x, k.pc, k.stalled)) ∧
      (∀ c : Nat, c < p.numCores → t.outputs.progRdIdx[c]? = some (t.progRdIdx c)) ∧
      ∀ a, t.outputs.dmem.read a = p.dmemInit[a]?) ∧
  ∀ (s t : State) (c : Nat) (k k' : CoreState), s.Inv → s.terminated = false → step s = .next t →
    s.cores[c]? = some k → t.cores[c]? = some k' →
      (∀ j, s.progRdIdx c = some j → ∃ p tm, PcAfterExecute s c k p ∧ fetchIndex p s.prog.length = some j ∧
        s.prog[j]? = some tm ∧ k'.slots.f = some (fetchRecord c p tm) ∧ k'.pc = p + 4) ∧
      (s.progRdIdx c = none → (k'.slots.f = none ∨ k'.slots.f = k.slots.f) ∧ PcAfterExecute s c k k'.pc)
end

