-- ==== Sys2Proof/Laws/Memory.lean ====
section
/-! SUPPORT. DMEM: what a read gives after a write, and that every operation keeps the canonical form. -/

namespace Sys2Proof.Machine

theorem lookupCell_insertCell (cells : List (Nat × Int)) (a b : Nat) (v : Int)
    (h : (cells.map Prod.fst).Pairwise (· < ·)) :
    lookupCell (insertCell cells a v) b = if b = a then v else lookupCell cells b := by
  induction cells with
  | nil => simp only [insertCell]; split <;> simp_all [lookupCell]
  | cons p rest ih =>
    obtain ⟨c, u⟩ := p
    have hrest : ∀ q ∈ rest, c < q.1 := by
      intro q hq
      exact (List.pairwise_cons.1 h).1 _ (List.mem_map_of_mem hq)
    have habsent : ∀ (l : List (Nat × Int)) (x : Nat), (∀ q ∈ l, x < q.1) → lookupCell l x = unlistedCell := by
      intro l x hl
      induction l with
      | nil => rfl
      | cons q qs ihq =>
        have hq := hl q (by simp)
        simp only [lookupCell]
        rw [if_neg (by omega)]
        exact ihq fun r hr => hl r (by simp [hr])
    have ih' := ih (List.pairwise_cons.1 h).2
    simp only [insertCell]
    split
    · rename_i hac
      have ha : lookupCell ((c, u) :: rest) a = unlistedCell :=
        habsent _ a (by intro q hq; rcases List.mem_cons.1 hq with rfl | hq
                        · exact hac
                        · exact Nat.lt_trans hac (hrest q hq))
      split
      · split
        · subst b; rw [ha]; simp_all
        · rfl
      · simp only [lookupCell]
    · split
      · rename_i _ hac
        subst hac
        have ha := habsent rest a hrest
        split
        · by_cases hb : b = a
          · subst b; simp_all
          · simp [lookupCell, hb]
        · by_cases hb : b = a <;> simp [lookupCell, hb]
      · rename_i h1 h2
        simp only [lookupCell]
        by_cases hb : b = c
        · have : ¬ b = a := by omega
          rw [if_pos hb, if_neg this, if_pos hb]
        · rw [if_neg hb, if_neg hb]; exact ih'

theorem mem_insertCell {cells : List (Nat × Int)} {a : Nat} {v : Int} {p : Nat × Int}
    (h : p ∈ insertCell cells a v) : (p = (a, v) ∧ v ≠ unlistedCell) ∨ p ∈ cells := by
  induction cells with
  | nil => simp only [insertCell] at h; split at h <;> simp_all
  | cons q rest ih =>
    obtain ⟨b, u⟩ := q
    simp only [insertCell] at h
    split at h
    · split at h
      · exact .inr h
      · rcases List.mem_cons.1 h with h | h
        · exact .inl ⟨h, by assumption⟩
        · exact .inr h
    · split at h
      · split at h
        · exact .inr (List.mem_cons_of_mem _ h)
        · rcases List.mem_cons.1 h with h | h
          · exact .inl ⟨h, by assumption⟩
          · exact .inr (List.mem_cons_of_mem _ h)
      · rcases List.mem_cons.1 h with h | h
        · exact .inr (by simp [h])
        · rcases ih h with h | h
          · exact .inl h
          · exact .inr (List.mem_cons_of_mem _ h)

theorem insertCell_pairwise (cells : List (Nat × Int)) (a : Nat) (v : Int)
    (h : (cells.map Prod.fst).Pairwise (· < ·)) : ((insertCell cells a v).map Prod.fst).Pairwise (· < ·) := by
  induction cells with
  | nil => simp only [insertCell]; split <;> simp
  | cons q rest ih =>
    obtain ⟨b, u⟩ := q
    have hb := (List.pairwise_cons.1 h).1
    have hr := (List.pairwise_cons.1 h).2
    simp only [insertCell]
    split
    · split
      · exact h
      · rename_i hab _
        refine List.pairwise_cons.2 ⟨?_, h⟩
        intro x hx
        rcases List.mem_cons.1 hx with rfl | hx
        · exact hab
        · exact Nat.lt_trans hab (hb x hx)
    · split
      · rename_i hab
        subst hab
        split
        · exact hr
        · exact List.pairwise_cons.2 ⟨hb, hr⟩
      · rename_i h1 h2
        refine List.pairwise_cons.2 ⟨?_, ih hr⟩
        intro x hx
        obtain ⟨p, hp, rfl⟩ := List.mem_map.1 hx
        rcases mem_insertCell hp with ⟨rfl, _⟩ | hp
        · show b < a; omega
        · exact hb _ (List.mem_map_of_mem hp)

/-- A write keeps the canonical form. -/
theorem Memory.write_wf {m m' : Memory} {a : Nat} {v : Int} (h : m.wf) (hw : m.write a v = some m') : m'.wf := by
  simp only [Memory.write] at hw
  split at hw
  · rename_i ha
    obtain rfl := Option.some.inj hw
    refine ⟨insertCell_pairwise _ _ _ h.1, ?_⟩
    intro p hp
    rcases mem_insertCell hp with ⟨rfl, hv⟩ | hp
    · exact ⟨ha, hv⟩
    · exact h.2 p hp
  · cases hw

/-- What a read gives after a write: the value written at its index, and what it gave before at every other. -/
theorem Memory.read_write {m m' : Memory} {a : Nat} {v : Int} (h : m.wf) (hw : m.write a v = some m') (b : Nat) :
    m'.read b = if b = a then some v else m.read b := by
  simp only [Memory.write] at hw
  split at hw
  · rename_i ha
    obtain rfl := Option.some.inj hw
    simp only [Memory.read, lookupCell_insertCell _ _ _ _ h.1]
    by_cases hb : b = a
    · subst b; simp [ha]
    · simp [hb]
  · cases hw

theorem mem_cellsFrom {vs : List Int} {k : Nat} {p : Nat × Int} (h : p ∈ cellsFrom k vs) :
    k ≤ p.1 ∧ p.1 < k + vs.length ∧ p.2 ≠ unlistedCell := by
  induction vs generalizing k with
  | nil => simp [cellsFrom] at h
  | cons v vs ih =>
    simp only [cellsFrom] at h
    split at h
    · have := ih h; simp only [List.length_cons]; omega
    · rcases List.mem_cons.1 h with rfl | h
      · simp_all
      · have := ih h; simp only [List.length_cons]; omega

theorem cellsFrom_pairwise (vs : List Int) (k : Nat) : ((cellsFrom k vs).map Prod.fst).Pairwise (· < ·) := by
  induction vs generalizing k with
  | nil => simp [cellsFrom]
  | cons v vs ih =>
    simp only [cellsFrom]
    split
    · exact ih _
    · refine List.pairwise_cons.2 ⟨?_, ih _⟩
      intro x hx
      obtain ⟨p, hp, rfl⟩ := List.mem_map.1 hx
      have := mem_cellsFrom hp
      show k < p.1; omega

/-- The memory of an array is in the canonical form; so is the memory of every constructed state. -/
theorem Memory.ofArray_wf (vs : List Int) : (Memory.ofArray vs).wf :=
  ⟨cellsFrom_pairwise vs 0, fun p hp => by have := mem_cellsFrom hp; simp [Memory.ofArray]; omega⟩

theorem lookupCell_cellsFrom (vs : List Int) (k a : Nat) :
    lookupCell (cellsFrom k vs) (k + a) = vs[a]?.getD unlistedCell := by
  induction vs generalizing k a with
  | nil => simp [cellsFrom, lookupCell]
  | cons v vs ih =>
    have below : ∀ (l : List (Nat × Int)) (x : Nat), (∀ q ∈ l, x < q.1) → lookupCell l x = unlistedCell := by
      intro l x hl
      induction l with
      | nil => rfl
      | cons q qs ihq =>
        have hq := hl q (by simp)
        simp only [lookupCell]
        rw [if_neg (by omega)]
        exact ihq fun r hr => hl r (by simp [hr])
    cases a with
    | zero =>
      simp only [cellsFrom]
      split
      · rw [below _ _ fun q hq => by have := mem_cellsFrom hq; omega]; simp_all
      · simp [lookupCell]
    | succ a =>
      have step : k + (a + 1) = k + 1 + a := by omega
      simp only [cellsFrom]
      split
      · rw [step, ih]; simp
      · simp only [lookupCell]; rw [if_neg (by omega), step, ih]; simp

/-- An array's memory reads as the array. -/
theorem Memory.read_ofArray (vs : List Int) (a : Nat) : (Memory.ofArray vs).read a = vs[a]? := by
  have h := lookupCell_cellsFrom vs 0 a
  rw [Nat.zero_add] at h
  simp only [Memory.read, Memory.ofArray, h]
  split
  · rename_i ha; simp [ha]
  · rename_i ha; simp [List.getElem?_eq_none (Nat.le_of_not_lt ha)]

end Sys2Proof.Machine
end

