-- ==== Sys2Proof/Laws/State.lean ====
section
/-! SUPPORT. The small lemmas of the state's updates: one per field per update, tagged for simp, so that no proof unfolds a
record update. -/

namespace Sys2Proof.Machine

/-! ## Registers and pc of one core -/

@[simp] theorem CoreState.readReg_writeReg_self (k : CoreState) (r : RegIx) (v : Word) :
    (k.writeReg r v).readReg r = v := by simp [readReg, writeReg]

theorem CoreState.readReg_writeReg_of_ne (k : CoreState) {r q : RegIx} (v : Word) (h : q ≠ r) :
    (k.writeReg r v).readReg q = k.readReg q := by
  have : r.val ≠ q.val := fun e => h (Fin.ext e.symm)
  simp [readReg, writeReg, this]

theorem CoreState.readReg_writeReg (k : CoreState) (r q : RegIx) (v : Word) :
    (k.writeReg r v).readReg q = if q = r then v else k.readReg q := by
  split
  · subst q; simp
  · rename_i h; exact k.readReg_writeReg_of_ne v h

@[simp] theorem CoreState.writeReg_pc (k : CoreState) (r : RegIx) (v : Word) : (k.writeReg r v).pc = k.pc := rfl
@[simp] theorem CoreState.writeReg_stalled (k : CoreState) (r : RegIx) (v : Word) :
    (k.writeReg r v).stalled = k.stalled := rfl
@[simp] theorem CoreState.writeReg_slots (k : CoreState) (r : RegIx) (v : Word) :
    (k.writeReg r v).slots = k.slots := rfl

@[simp] theorem CoreState.addPc_readReg (k : CoreState) (v : Word) (r : RegIx) :
    (k.addPc v).readReg r = k.readReg r := rfl
@[simp] theorem CoreState.addPc_x (k : CoreState) (v : Word) : (k.addPc v).x = k.x := rfl
@[simp] theorem CoreState.addPc_pc (k : CoreState) (v : Word) : (k.addPc v).pc = k.pc + v := rfl
@[simp] theorem CoreState.addPc_stalled (k : CoreState) (v : Word) : (k.addPc v).stalled = k.stalled := rfl
@[simp] theorem CoreState.addPc_slots (k : CoreState) (v : Word) : (k.addPc v).slots = k.slots := rfl

@[simp] theorem CoreState.advance_readReg (k : CoreState) (r : RegIx) : k.advance.readReg r = k.readReg r := rfl
@[simp] theorem CoreState.advance_x (k : CoreState) : k.advance.x = k.x := rfl
@[simp] theorem CoreState.advance_pc (k : CoreState) : k.advance.pc = k.pc + 4 := rfl
@[simp] theorem CoreState.advance_stalled (k : CoreState) : k.advance.stalled = k.stalled := rfl
@[simp] theorem CoreState.advance_slots (k : CoreState) : k.advance.slots = k.slots := rfl

/-! ## One core of the block -/

@[simp] theorem State.updateCore_cycles (s : State) (c : Nat) (f : CoreState → CoreState) :
    (s.updateCore c f).cycles = s.cycles := rfl
@[simp] theorem State.updateCore_stalls (s : State) (c : Nat) (f : CoreState → CoreState) :
    (s.updateCore c f).stalls = s.stalls := rfl
@[simp] theorem State.updateCore_terminated (s : State) (c : Nat) (f : CoreState → CoreState) :
    (s.updateCore c f).terminated = s.terminated := rfl
@[simp] theorem State.updateCore_prog (s : State) (c : Nat) (f : CoreState → CoreState) :
    (s.updateCore c f).prog = s.prog := rfl
@[simp] theorem State.updateCore_lat (s : State) (c : Nat) (f : CoreState → CoreState) :
    (s.updateCore c f).lat = s.lat := rfl
@[simp] theorem State.updateCore_fwd (s : State) (c : Nat) (f : CoreState → CoreState) :
    (s.updateCore c f).fwd = s.fwd := rfl
@[simp] theorem State.updateCore_dmem (s : State) (c : Nat) (f : CoreState → CoreState) :
    (s.updateCore c f).dmem = s.dmem := rfl
@[simp] theorem State.updateCore_length (s : State) (c : Nat) (f : CoreState → CoreState) :
    (s.updateCore c f).cores.length = s.cores.length := by simp [updateCore]
@[simp] theorem State.updateCore_self (s : State) (c : Nat) (f : CoreState → CoreState) :
    (s.updateCore c f).cores[c]? = s.cores[c]?.map f := by simp [updateCore]
theorem State.updateCore_other (s : State) {c d : Nat} (f : CoreState → CoreState) (h : d ≠ c) :
    (s.updateCore c f).cores[d]? = s.cores[d]? := by
  simp [updateCore, Ne.symm h]
theorem State.updateCore_get (s : State) (c d : Nat) (f : CoreState → CoreState) :
    (s.updateCore c f).cores[d]? = if d = c then s.cores[d]?.map f else s.cores[d]? := by
  split
  · subst d; simp
  · rename_i h; exact s.updateCore_other f h

theorem sameOutside_updateCore (s : State) (c : Nat) (f : CoreState → CoreState) :
    SameOutside c s (s.updateCore c f) :=
  ⟨fun _ h => s.updateCore_other f h, by simp, rfl, rfl, rfl, rfl, rfl, rfl, fun _ => rfl⟩

end Sys2Proof.Machine
end

