-- ==== Sys2Proof/Laws/Ops.lean ====
section
/-! SUPPORT. What the shared operations and the Executor can do, said once. -/

namespace Sys2Proof.Machine

@[simp] theorem chain_next {σ τ : Type} (s : σ) (f : σ → Result τ) : chain (.next s) f = f s := rfl
@[simp] theorem chain_refused {σ τ : Type} (r : Refusal) (f : σ → Result τ) : chain (.refused r) f = .refused r := rfl

/-- A sequence answers next exactly when both parts do. -/
theorem chain_eq_next {σ τ : Type} {o : Result σ} {f : σ → Result τ} {t : τ} :
    chain o f = .next t ↔ ∃ s, o = .next s ∧ f s = .next t := by
  cases o <;> simp [chain]

/-- The Executor's shared operation: a next state has one core changed, and the core is there. -/
theorem onCore_eq_next {s t : State} {c : Nat} {f : CoreState → CoreState} :
    onCore s c f = .next t ↔ (∃ k, s.cores[c]? = some k) ∧ t = s.updateCore c f := by
  unfold onCore
  cases h : s.cores[c]? <;> simp [eq_comm]

/-- The same, forwards: with the core there, the operation answers next. -/
theorem onCore_of_core {s : State} {c : Nat} {k : CoreState} (f : CoreState → CoreState) (h : s.cores[c]? = some k) :
    onCore s c f = .next (s.updateCore c f) := by simp [onCore, h]

/-- What the Executor does to the record's core, as a function of that core alone. -/
def execCore (i : Instr) (k : CoreState) : CoreState :=
  match i with
  | .jal _ o (some d) _ _ imm => (k.writeReg d (o + Config.stepSize)).addPc imm
  | .bne _ _ (some a) (some b) _ imm => if k.differ a b then k.addPc imm else k.advance
  | .add _ _ (some d) (some a) (some b) _ => (k.writeReg d (k.readReg a + k.readReg b)).advance
  | .sub _ _ (some d) (some a) (some b) _ => (k.writeReg d (k.readReg a - k.readReg b)).advance
  | .swap _ _ _ (some a) (some b) _ => ((k.writeReg a (k.readReg b)).writeReg b (k.readReg a)).advance
  | _ => k.advance

/-- Every meaning is one change of the record's core. -/
theorem exec_eq_onCore (i : Instr) (s : State) : exec i s = onCore s i.coreId (execCore i) := by
  unfold exec
  cases i with
  | jal c o rd rs1 rs2 imm => cases rd <;> rfl
  | bne c o rd rs1 rs2 imm => cases rd <;> cases rs1 <;> rfl
  | add c o rd rs1 rs2 imm => cases rd <;> cases rs1 <;> cases rs2 <;> rfl
  | sub c o rd rs1 rs2 imm => cases rd <;> cases rs1 <;> cases rs2 <;> rfl
  | swap c o rd rs1 rs2 imm => cases rs1 <;> cases rs2 <;> rfl
  | unknown c o rd rs1 rs2 imm => rfl

@[simp] theorem execCore_slots (i : Instr) (k : CoreState) : (execCore i k).slots = k.slots := by
  unfold execCore
  split <;> try simp
  split <;> simp

@[simp] theorem execCore_stalled (i : Instr) (k : CoreState) : (execCore i k).stalled = k.stalled := by
  unfold execCore
  split <;> try simp
  split <;> simp

/-- What the Executor can answer: a next state in which only the record's core has changed, and of it only registers and
pc. -/
theorem exec_eq_next {i : Instr} {s t : State} :
    exec i s = .next t ↔ (∃ k, s.cores[i.coreId]? = some k) ∧ t = s.updateCore i.coreId (execCore i) := by
  rw [exec_eq_onCore, onCore_eq_next]

theorem exec_of_core {i : Instr} {s : State} {k : CoreState} (h : s.cores[i.coreId]? = some k) :
    exec i s = .next (s.updateCore i.coreId (execCore i)) := by rw [exec_eq_onCore, onCore_of_core _ h]

end Sys2Proof.Machine
end

