-- ==== Sys2Proof/Laws/Pipeline.lean ====
section
/-! SUPPORT. The core step in closed form: the Executor's call, then one function of the core and of its start-of-cycle
slots. -/

namespace Sys2Proof.Machine

/-! ## The units -/

theorem sameReg_eq_true {a b : RegField} : sameReg a b = true ↔ a.isSome = true ∧ a = b := by
  cases a <;> cases b <;> simp [sameReg]

/-- A record is rebuilt from its own fields. -/
theorem Instr.withSources_self (i : Instr) : i.withSources i.rs1 i.rs2 = i := by cases i <;> rfl

/-- One producer's turn in the ForwardingUnit rewrites nothing: a field is replaced only by its own value. -/
theorem forwardFrom_eq (d p : Instr) : forwardFrom d p = d := by
  have pick : ∀ r : RegField, (if sameReg p.rd r then p.rd else r) = r := by
    intro r
    split
    · rename_i h; exact (sameReg_eq_true.1 h).2
    · rfl
  rw [forwardFrom, pick, pick, Instr.withSources_self]

theorem foldl_forwardFrom (l : List Instr) (d : Instr) : l.foldl forwardFrom d = d := by
  induction l with
  | nil => rfl
  | cons p l ih => rw [List.foldl_cons, forwardFrom_eq, ih]

@[simp] theorem fetchRecord_coreId (c : Nat) (p : Word) (t : Template) : (fetchRecord c p t).coreId = c := by
  cases t with | mk op rd rs1 rs2 imm => cases op <;> rfl
@[simp] theorem fetchRecord_originPc (c : Nat) (p : Word) (t : Template) : (fetchRecord c p t).originPc = p := by
  cases t with | mk op rd rs1 rs2 imm => cases op <;> rfl
@[simp] theorem fetchRecord_template (c : Nat) (p : Word) (t : Template) : (fetchRecord c p t).template = t := by
  cases t with | mk op rd rs1 rs2 imm => cases op <;> rfl

/-! ## The core step in closed form -/

/-- `exBusy` of the cycle (R141). -/
def Slots.exBusy (z : Slots) : Bool := z.e.any fun e => decide (1 < e.lr)

/-- The decode slot after the decode step. -/
def Slots.dHeld (z : Slots) : Option Instr := if z.exBusy then z.d else none

/-- The execute slot of the next cycle. -/
def Slots.eNext (z : Slots) (lat : LatTable) : Option ExecSlot :=
  if z.exBusy then z.e.map fun e => { instr := e.instr, lr := e.lr - 1 }
  else z.d.map fun d => { instr := d, lr := latencyOf lat d.opcode }

/-- The memory slot of the next cycle. -/
def Slots.mNext (z : Slots) : Option Instr := if z.exBusy then none else z.inExecute

/-- Whether the fetch step keeps its instruction. -/
def Slots.fKept (z : Slots) (fwd : Bool) : Bool := hazard z fwd || z.dHeld.isSome

/-- `stalled` after the fetch step. -/
def Slots.stalledNext (z : Slots) (fwd b : Bool) : Bool := if z.f.isSome then hazard z fwd else b

/-- The fetch slot after the fetch step. -/
def Slots.fHeld (z : Slots) (fwd : Bool) : Option Instr := if z.fKept fwd then z.f else none

/-- The decode slot of the next cycle. -/
def Slots.dNext (z : Slots) (fwd : Bool) : Option Instr :=
  if z.fKept fwd then z.dHeld else z.f

/-- The record the new-fetch step takes, `k` being the core after the Executor's call. -/
def newRecord (c : Nat) (prog : List Template) (fwd : Bool) (z : Slots) (k : CoreState) : Option Instr :=
  if z.stalledNext fwd k.stalled || (z.fHeld fwd).isSome then none else (entryAt prog k.pc).map (fetchRecord c k.pc)

/-- The rest of a core's cycle after the Executor's call, as a function of the core. -/
def finishCore (c : Nat) (prog : List Template) (lat : LatTable) (fwd : Bool) (z : Slots) (k : CoreState) : CoreState :=
  { x := k.x
    pc := if (newRecord c prog fwd z k).isSome then k.pc + 4 else k.pc
    stalled := z.stalledNext fwd k.stalled
    slots :=
      { f := (z.fHeld fwd).or (newRecord c prog fwd z k)
        d := z.dNext fwd
        e := z.eNext lat
        m := z.mNext
        w := z.m } }

/-- The Executor's part of a core's cycle. -/
def executePart (z : Slots) (s : State) : Result State :=
  match z.e with
  | none => .next s
  | some e => if 1 < e.lr then .next s else exec e.instr s

theorem executeStep_closed (z : Slots) (s : State) :
    executeStep z (memoryStep z (writebackStep z (startWork s))) =
      chain (executePart z s) fun t =>
        .next { st := t
                nxt := { f := none, d := none, m := z.mNext, w := z.m
                         e := if z.exBusy then z.e.map fun e => { instr := e.instr, lr := e.lr - 1 } else none }
                exBusy := z.exBusy } := by
  cases h : z.e with
  | none =>
    simp [executeStep, memoryStep, writebackStep, startWork, executePart, Slots.exBusy, Slots.mNext, Slots.inExecute,
      Slots.empty, h]
  | some e =>
    by_cases hl : 1 < e.lr
    · simp [executeStep, memoryStep, writebackStep, startWork, executePart, Slots.exBusy, Slots.mNext,
        Slots.empty, h, hl]
    · simp [executeStep, memoryStep, writebackStep, startWork, executePart, Slots.exBusy, Slots.mNext, Slots.inExecute,
        Slots.empty, h, hl]

theorem decodeStep_closed (z : Slots) (t : State) :
    decodeStep z { st := t
                   nxt := { f := none, d := none, m := z.mNext, w := z.m
                            e := if z.exBusy then z.e.map fun e => { instr := e.instr, lr := e.lr - 1 } else none }
                   exBusy := z.exBusy } =
      { st := t, nxt := { f := none, d := z.dHeld, e := z.eNext t.lat, m := z.mNext, w := z.m }, exBusy := z.exBusy } := by
  cases hd : z.d <;> cases hb : z.exBusy <;>
    simp [decodeStep, Slots.dHeld, Slots.eNext, forward, foldl_forwardFrom, hd, hb]

theorem fetchStep_closed (c : Nat) (z : Slots) (w : CycleWork) (hf : w.nxt.f = none) (hd : w.nxt.d = z.dHeld) :
    fetchStep c z w =
      { w with
        st := { w.st.updateCore c (fun k => { k with stalled := z.stalledNext w.st.fwd k.stalled }) with
                stalls := w.st.stalls + if z.f.isSome && hazard z w.st.fwd then 1 else 0 }
        nxt := { w.nxt with f := z.fHeld w.st.fwd, d := z.dNext w.st.fwd } } := by
  obtain ⟨st, nxt, b⟩ := w
  obtain ⟨nf, nd, ne, nm, nw⟩ := nxt
  obtain ⟨cores, cycles, stalls, term, prog, lat, fwd, dmem⟩ := st
  simp only at hf hd
  subst hf hd
  cases hz : z.f with
  | none =>
    have : (fun k : CoreState => { k with stalled := k.stalled }) = id := rfl
    cases hd : z.dHeld <;>
      simp [fetchStep, Slots.stalledNext, Slots.fHeld, Slots.dNext, Slots.fKept, State.updateCore, hz, hd, this]
  | some f =>
    cases hh : hazard z fwd with
    | true => simp [fetchStep, hazardUnit, setStalled, State.updateCore, Slots.stalledNext, Slots.fHeld, Slots.dNext, Slots.fKept, hz, hh]
    | false =>
      cases hd : z.dHeld <;>
      simp [fetchStep, hazardUnit, setStalled, State.updateCore, Slots.stalledNext, Slots.fHeld, Slots.dNext, Slots.fKept, hz, hh, hd]

/-- The index the new-fetch step reads, for a core of the block. -/
theorem newFetchIndex_eq {c : Nat} {w : CycleWork} {k : CoreState} (hk : w.st.cores[c]? = some k) :
    newFetchIndex c w = if k.stalled || w.nxt.f.isSome then none else fetchIndex k.pc w.st.prog.length := by
  simp only [newFetchIndex, hk]

/-- The new-fetch step of a core that is stalled, has its fetch slot filled, or has nothing at its pc. -/
theorem newFetchStep_idle {c : Nat} {w : CycleWork} {k : CoreState} (hk : w.st.cores[c]? = some k)
    (h : (k.stalled || w.nxt.f.isSome) = true ∨ entryAt w.st.prog k.pc = none) : newFetchStep c w = w := by
  have : (newFetchIndex c w).bind (w.st.prog[·]?) = none := by
    rw [newFetchIndex_eq hk]
    rcases h with h | h
    · rw [h]; rfl
    · unfold entryAt at h; split
      · rfl
      · exact h
  simp only [newFetchStep, hk, this]

/-- The new-fetch step of a core that takes the entry `t`. -/
theorem newFetchStep_takes {c : Nat} {w : CycleWork} {k : CoreState} {t : Template} (hk : w.st.cores[c]? = some k)
    (h : (k.stalled || w.nxt.f.isSome) = false) (ht : entryAt w.st.prog k.pc = some t) :
    newFetchStep c w =
      { w with
        st := w.st.updateCore c CoreState.advance
        nxt := { w.nxt with f := some (fetchRecord c k.pc t) } } := by
  have : (newFetchIndex c w).bind (w.st.prog[·]?) = some t := by
    rw [newFetchIndex_eq hk, h]; exact ht
  simp only [newFetchStep, hk, this]

theorem modify_modify (l : List CoreState) (c : Nat) (f g : CoreState → CoreState) :
    (l.modify c f).modify c g = l.modify c (g ∘ f) := by
  apply List.ext_getElem?
  intro d
  simp only [List.getElem?_modify]
  by_cases hd : c = d <;> simp [hd, Function.comp_def]

theorem modify_congr {l : List CoreState} {c : Nat} {k : CoreState} (hk : l[c]? = some k) {f g : CoreState → CoreState}
    (h : f k = g k) : l.modify c f = l.modify c g := by
  apply List.ext_getElem?
  intro d
  simp only [List.getElem?_modify]
  by_cases hd : c = d
  · subst hd; simp [hk, h]
  · simp [hd]

/-- The Executor's part changes the registers and the pc of one core at most. -/
theorem executePart_cases {z : Slots} {s t : State} (h : executePart z s = .next t) :
    ((z.exBusy = true ∨ z.e = none) ∧ t = s) ∨
      ∃ e, z.e = some e ∧ z.exBusy = false ∧ (∃ k, s.cores[e.instr.coreId]? = some k) ∧
        t = s.updateCore e.instr.coreId (execCore e.instr) := by
  unfold executePart at h
  split at h
  · rename_i he
    cases h
    exact .inl ⟨.inr he, rfl⟩
  · rename_i e he
    split at h
    · rename_i hl
      cases h
      exact .inl ⟨.inl (by simp [Slots.exBusy, he, hl]), rfl⟩
    · rename_i hl
      obtain ⟨hk, rfl⟩ := exec_eq_next.1 h
      exact .inr ⟨e, he, by simp [Slots.exBusy, he, hl], hk, rfl⟩

/-- After the Executor's part, every core is there still, with the slots and the flag it had. -/
theorem executePart_keeps {z : Slots} {s t : State} (h : executePart z s = .next t) {d : Nat} {k : CoreState}
    (hk : s.cores[d]? = some k) : ∃ k1, t.cores[d]? = some k1 ∧ k1.slots = k.slots ∧ k1.stalled = k.stalled := by
  rcases executePart_cases h with ⟨_, rfl⟩ | ⟨e, _, _, _, rfl⟩
  · exact ⟨k, hk, rfl, rfl⟩
  · rw [State.updateCore_get]
    split
    · exact ⟨execCore e.instr k, by simp [hk], by simp, by simp⟩
    · exact ⟨k, hk, rfl, rfl⟩

/-- The cycle of core `c` up to its new fetch, said once: the Executor's part on the whole state, then the flag, the stall
counter and the slots. -/
theorem beforeNewFetch_closed {s : State} {c : Nat} {k : CoreState} (hk : s.cores[c]? = some k) :
    beforeNewFetch c s = chain (executePart k.slots s) fun t =>
      .next { st := { t.updateCore c (fun k1 => { k1 with stalled := k.slots.stalledNext t.fwd k1.stalled }) with
                      stalls := t.stalls + if k.slots.f.isSome && hazard k.slots t.fwd then 1 else 0 }
              nxt := { f := k.slots.fHeld t.fwd, d := k.slots.dNext t.fwd, e := k.slots.eNext t.lat
                       m := k.slots.mNext, w := k.slots.m }
              exBusy := k.slots.exBusy } := by
  unfold beforeNewFetch
  rw [hk]
  simp only []
  rw [executeStep_closed]
  cases h : executePart k.slots s with
  | fault r => rfl
  | refused r => rfl
  | next t =>
    simp only [chain_next]
    rw [decodeStep_closed, fetchStep_closed _ _ _ rfl rfl]

/-- The core step, said once: the Executor's part on the whole state, then `finishCore` on core `c`, and one more stall when
the HazardUnit stalls an occupied fetch slot. -/
theorem coreStep_closed {s : State} {c : Nat} {k : CoreState} (hk : s.cores[c]? = some k) :
    coreStep c s = chain (executePart k.slots s) fun t =>
      .next { t.updateCore c (finishCore c t.prog t.lat t.fwd k.slots) with
              stalls := t.stalls + if k.slots.f.isSome && hazard k.slots t.fwd then 1 else 0 } := by
  unfold coreStep
  rw [beforeNewFetch_closed hk]
  cases h : executePart k.slots s with
  | fault r => rfl
  | refused r => rfl
  | next t =>
    obtain ⟨k1, hk1, -, -⟩ := executePart_keeps h hk
    simp only [chain_next]
    have hcore : ∀ g : CoreState → CoreState, (t.updateCore c g).cores[c]? = some (g k1) := by intro g; simp [hk1]
    by_cases hn : (k.slots.stalledNext t.fwd k1.stalled || (k.slots.fHeld t.fwd).isSome) = true ∨
        entryAt t.prog k1.pc = none
    · rw [newFetchStep_idle (hcore _) (by simpa using hn)]
      have hnew : newRecord c t.prog t.fwd k.slots k1 = none := by
        unfold newRecord
        rcases hn with hn | hn
        · rw [if_pos hn]
        · simp [hn]
      simp only [commitSlots, State.updateCore, modify_modify]
      congr 2
      apply modify_congr hk1
      simp [finishCore, hnew]
    · obtain ⟨hs, he⟩ := not_or.1 hn
      obtain ⟨tm, he⟩ := Option.ne_none_iff_exists'.1 he
      have hs : (k.slots.stalledNext t.fwd k1.stalled || (k.slots.fHeld t.fwd).isSome) = false := by simpa using hs
      rw [newFetchStep_takes (hcore _) hs (by simpa using he)]
      have hnew : newRecord c t.prog t.fwd k.slots k1 = some (fetchRecord c k1.pc tm) := by
        unfold newRecord; rw [hs]; simp [he]
      have hf : k.slots.fHeld t.fwd = none := by simp at hs; exact hs.2
      simp only [commitSlots, State.updateCore, modify_modify]
      congr 2
      apply modify_congr hk1
      simp [finishCore, hnew, hf, CoreState.advance, CoreState.addPc, Config.stepSize]

end Sys2Proof.Machine
end

