-- ==== Sys2Proof/Laws/Scheduler.lean ====
section
/-! SUPPORT. A cycle over all active cores, said once: what it leaves, what it does to each core, and what a step can answer. -/

namespace Sys2Proof.Machine

/-- What no part of a cycle changes: the number of cores, the cycle counter, the flag of R152 and the run's parameters. -/
structure SameRun (s t : State) : Prop where
  length : t.cores.length = s.cores.length
  cycles : t.cycles = s.cycles
  terminated : t.terminated = s.terminated
  prog : t.prog = s.prog
  lat : t.lat = s.lat
  fwd : t.fwd = s.fwd
  dmem : t.dmem = s.dmem

theorem SameRun.refl (s : State) : SameRun s s := ⟨rfl, rfl, rfl, rfl, rfl, rfl, rfl⟩

theorem SameRun.trans {s t u : State} (h : SameRun s t) (g : SameRun t u) : SameRun s u :=
  ⟨g.length.trans h.length, g.cycles.trans h.cycles, g.terminated.trans h.terminated, g.prog.trans h.prog,
    g.lat.trans h.lat, g.fwd.trans h.fwd, g.dmem.trans h.dmem⟩

theorem sameRun_updateCore (s : State) (c : Nat) (f : CoreState → CoreState) : SameRun s (s.updateCore c f) :=
  ⟨by simp, rfl, rfl, rfl, rfl, rfl, rfl⟩

theorem executePart_sameRun {z : Slots} {s t : State} (h : executePart z s = .next t) :
    SameRun s t ∧ t.stalls = s.stalls := by
  rcases executePart_cases h with ⟨_, rfl⟩ | ⟨e, _, _, _, rfl⟩
  · exact ⟨.refl _, rfl⟩
  · exact ⟨sameRun_updateCore _ _ _, rfl⟩

/-- What a core step can answer: the Executor's part, then the rest of the core's cycle. -/
theorem coreStep_next {s t : State} {c : Nat} {k : CoreState} (hk : s.cores[c]? = some k) (h : coreStep c s = .next t) :
    ∃ u, executePart k.slots s = .next u ∧
      t = { u.updateCore c (finishCore c s.prog s.lat s.fwd k.slots) with
            stalls := s.stalls + if s.stallsAt c then 1 else 0 } := by
  rw [coreStep_closed hk] at h
  obtain ⟨u, hu, ht⟩ := chain_eq_next.1 h
  obtain ⟨hr, hs⟩ := executePart_sameRun hu
  cases ht
  refine ⟨u, hu, ?_⟩
  simp only [State.stallsAt, hk, hr.prog, hr.lat, hr.fwd, hs]

theorem coreStep_sameRun {s t : State} {c : Nat} (h : coreStep c s = .next t) :
    SameRun s t ∧ t.stalls = s.stalls + if s.stallsAt c then 1 else 0 := by
  cases hk : s.cores[c]? with
  | none => simp [coreStep, beforeNewFetch, hk] at h
  | some k =>
    obtain ⟨u, hu, rfl⟩ := coreStep_next hk h
    have hr := (executePart_sameRun hu).1
    exact ⟨hr.trans ⟨by simp, rfl, rfl, rfl, rfl, rfl, rfl⟩, rfl⟩

/-- What a core step does to the slots and the flag of any core: those of `c` are the finished ones, for some registers and
pc; those of another core stay. -/
theorem coreStep_slots {s t : State} {c : Nat} (h : coreStep c s = .next t) {d : Nat} {k : CoreState}
    (hd : s.cores[d]? = some k) : ∃ k' k1, t.cores[d]? = some k' ∧ k1.slots = k.slots ∧ k1.stalled = k.stalled ∧
      k'.slots = (if d = c then finishCore c s.prog s.lat s.fwd k.slots k1 else k).slots ∧
      k'.stalled = (if d = c then finishCore c s.prog s.lat s.fwd k.slots k1 else k).stalled := by
  cases hk : s.cores[c]? with
  | none => simp [coreStep, beforeNewFetch, hk] at h
  | some kc =>
    obtain ⟨u, hu, rfl⟩ := coreStep_next hk h
    obtain ⟨k1, h1, h2, h3⟩ := executePart_keeps hu hd
    by_cases hdc : d = c
    · subst d
      rw [hk] at hd
      cases hd
      exact ⟨finishCore c s.prog s.lat s.fwd k.slots k1, k1, by simp [h1], h2, h3, by simp, by simp⟩
    · refine ⟨k1, k1, ?_, h2, h3, by simp [hdc, h2], by simp [hdc, h3]⟩
      show (u.updateCore c _).cores[d]? = _
      rw [State.updateCore_other _ _ hdc, h1]

/-- A core after the Executor's part of its cycle, when the record it executes is its own. -/
def executedCore (k : CoreState) : CoreState :=
  match k.slots.e with
  | some e => if k.slots.exBusy then k else execCore e.instr k
  | none => k

@[simp] theorem executedCore_slots (k : CoreState) : (executedCore k).slots = k.slots := by
  unfold executedCore
  split
  · split <;> simp
  · rfl

@[simp] theorem executedCore_stalled (k : CoreState) : (executedCore k).stalled = k.stalled := by
  unfold executedCore
  split
  · split <;> simp
  · rfl

/-- A core's next state in a cycle in which it is active, when the record it executes is its own. -/
def coreNext (c : Nat) (prog : List Template) (lat : LatTable) (fwd : Bool) (k : CoreState) : CoreState :=
  finishCore c prog lat fwd k.slots (executedCore k)

/-- What a core step does to the cores when the record it executes is its own: core `c` goes to its next state and no other
core changes. -/
theorem coreStep_own {s t : State} {c : Nat} {k : CoreState} (hk : s.cores[c]? = some k)
    (hown : ∀ e ∈ k.slots.e, e.instr.coreId = c) (h : coreStep c s = .next t) (d : Nat) :
    t.cores[d]? = if d = c then some (coreNext c s.prog s.lat s.fwd k) else s.cores[d]? := by
  obtain ⟨u, hu, rfl⟩ := coreStep_next hk h
  show (u.updateCore c _).cores[d]? = _
  rw [State.updateCore_get]
  rcases executePart_cases hu with ⟨hb, rfl⟩ | ⟨e, he, hb, _, rfl⟩
  · split
    · subst d
      rcases hb with hb | hb
      · cases he : k.slots.e <;> simp [coreNext, executedCore, hk, hb, he]
      · simp [coreNext, executedCore, hk, hb]
    · rfl
  · have hc := hown e (by simp [he])
    split
    · subst d
      simp [coreNext, executedCore, hc, hk, he, hb]
    · rename_i hd
      rw [State.updateCore_other _ _ (by rw [hc]; exact hd)]

/-- Every core executes its own records (R100): the part of the invariant that the schedule needs. -/
def OwnRecords (s : State) : Prop :=
  ∀ (c : Nat) (k : CoreState), s.cores[c]? = some k → ∀ e ∈ k.slots.e, e.instr.coreId = c

theorem State.Inv.ownRecords {s : State} (h : s.Inv) : OwnRecords s := by
  intro c k hk e he
  obtain ⟨hc, rfl⟩ := List.getElem?_eq_some_iff.1 hk
  refine ((h.2.1 c hc).2.1 e.instr ?_).1
  simp only [Option.mem_def] at he
  simp [Slots.inFlight, Slots.inExecute, he]

theorem serviceCores_sameRun {cs : List Nat} {s t : State} (h : serviceCores cs s = .next t) : SameRun s t := by
  induction cs generalizing s with
  | nil => cases h; exact .refl _
  | cons c cs ih =>
    obtain ⟨u, hu, ht⟩ := chain_eq_next.1 h
    exact (coreStep_sameRun hu).1.trans (ih ht)

theorem stallsAt_of_slots {s u : State} {d : Nat} (hf : u.fwd = s.fwd)
    (h : (u.cores[d]?).map CoreState.slots = (s.cores[d]?).map CoreState.slots) : u.stallsAt d = s.stallsAt d := by
  unfold State.stallsAt
  cases hs : s.cores[d]? <;> cases hu : u.cores[d]? <;> simp_all

/-- A core step leaves the slots of every other core. -/
theorem coreStep_other_slots {s t : State} {c d : Nat} (h : coreStep c s = .next t) (hd : d ≠ c) :
    (t.cores[d]?).map CoreState.slots = (s.cores[d]?).map CoreState.slots := by
  cases hs : s.cores[d]? with
  | none =>
    have := (coreStep_sameRun h).1.length
    have : t.cores[d]? = none := by
      rw [List.getElem?_eq_none_iff] at hs ⊢; omega
    simp [this]
  | some k =>
    obtain ⟨k', k1, h1, _, _, h4, _⟩ := coreStep_slots h hs
    simp [h1, h4, hd]

/-- The stall counter over the listed cores. -/
theorem serviceCores_stalls {cs : List Nat} {s t : State} (hn : cs.Nodup) (h : serviceCores cs s = .next t) :
    t.stalls = s.stalls + (cs.filter s.stallsAt).length := by
  induction cs generalizing s with
  | nil => cases h; simp
  | cons c cs ih =>
    obtain ⟨u, hu, ht⟩ := chain_eq_next.1 h
    have hn' := List.nodup_cons.1 hn
    rw [ih hn'.2 ht, (coreStep_sameRun hu).2]
    have : cs.filter u.stallsAt = cs.filter s.stallsAt := by
      apply List.filter_congr
      intro d hd
      exact stallsAt_of_slots (coreStep_sameRun hu).1.fwd
        (coreStep_other_slots hu (by rintro rfl; exact hn'.1 hd))
    rw [this, List.filter_cons]
    split
    · simp_all; omega
    · simp_all

/-- What the core steps of the listed cores do to the slots and the flag of a listed core. -/
theorem serviceCores_slots {cs : List Nat} {s t : State} (hn : cs.Nodup) (h : serviceCores cs s = .next t) {d : Nat}
    {k : CoreState} (hd : s.cores[d]? = some k) : ∃ k' k1, t.cores[d]? = some k' ∧ k1.slots = k.slots ∧
      k1.stalled = k.stalled ∧
      k'.slots = (if d ∈ cs then finishCore d s.prog s.lat s.fwd k.slots k1 else k).slots ∧
      k'.stalled = (if d ∈ cs then finishCore d s.prog s.lat s.fwd k.slots k1 else k).stalled := by
  induction cs generalizing s k with
  | nil => cases h; exact ⟨k, k, hd, rfl, rfl, by simp, by simp⟩
  | cons c cs ih =>
    obtain ⟨u, hu, ht⟩ := chain_eq_next.1 h
    have hn' := List.nodup_cons.1 hn
    have hr := (coreStep_sameRun hu).1
    obtain ⟨ku, k1, h1, h2, h3, h4, h5⟩ := coreStep_slots hu hd
    obtain ⟨k', k2, g1, g2, g3, g4, g5⟩ := ih hn'.2 ht h1
    rw [hr.prog, hr.lat, hr.fwd] at g4 g5
    by_cases hdc : d = c
    · subst d
      refine ⟨k', k1, g1, h2, h3, ?_, ?_⟩
      · simp only [hn'.1, if_false] at g4; simp [g4, h4]
      · simp only [hn'.1, if_false] at g5; simp [g5, h5]
    · simp only [hdc, if_false] at h4 h5
      refine ⟨k', k2, g1, g2.trans h4, g3.trans h5, ?_, ?_⟩
      · rw [g4, h4]; by_cases hm : d ∈ cs <;> simp [hm, hdc, h4]
      · rw [g5, h4]; by_cases hm : d ∈ cs <;> simp [hm, hdc, h5]

/-- What the core steps of the listed cores do to the cores when each executes its own records: each listed core goes to its
next state, which depends on nothing but the core and the run's parameters, and no other core changes (R167). -/
theorem serviceCores_own {cs : List Nat} {s t : State} (hn : cs.Nodup)
    (hown : ∀ c ∈ cs, ∀ k, s.cores[c]? = some k → ∀ e ∈ k.slots.e, e.instr.coreId = c)
    (h : serviceCores cs s = .next t) (d : Nat) :
    t.cores[d]? = if d ∈ cs then (s.cores[d]?).map (coreNext d s.prog s.lat s.fwd) else s.cores[d]? := by
  induction cs generalizing s with
  | nil => cases h; simp
  | cons c cs ih =>
    obtain ⟨u, hu, ht⟩ := chain_eq_next.1 h
    have hn' := List.nodup_cons.1 hn
    have hr := (coreStep_sameRun hu).1
    cases hk : s.cores[c]? with
    | none => simp [coreStep, beforeNewFetch, hk] at hu
    | some k =>
      have first := coreStep_own hk (hown c (by simp) k hk) hu
      have hown' : ∀ f ∈ cs, ∀ kk, u.cores[f]? = some kk → ∀ e ∈ kk.slots.e, e.instr.coreId = f := by
        intro f hf kk hkk
        have hfc : f ≠ c := by rintro rfl; exact hn'.1 hf
        rw [first, if_neg hfc] at hkk
        exact hown f (by simp [hf]) kk hkk
      rw [ih hn'.2 hown' ht, hr.prog, hr.lat, hr.fwd]
      by_cases hdc : d = c
      · subst d; simp [hn'.1, first, hk]
      · simp [hdc, first]

theorem activeCores_nodup (s : State) : s.activeCores.Nodup := List.Nodup.filter _ List.nodup_range

theorem mem_activeCores {s : State} {c : Nat} : c ∈ s.activeCores ↔ s.coreActive c = true := by
  unfold State.activeCores
  rw [List.mem_filter, List.mem_range]
  refine ⟨fun h => h.2, fun h => ⟨?_, h⟩⟩
  unfold State.coreActive at h
  cases hk : s.cores[c]? with
  | none => simp [hk] at h
  | some k => exact (List.getElem?_eq_some_iff.1 hk).1

/-- What a step can answer next: a terminated block is unchanged; with no active core only the flag is set; otherwise the
active cores take their core steps and one cycle is counted. -/
theorem step_next {s t : State} (h : step s = .next t) :
    s.refusedConfig = none ∧
      ((s.terminated = true ∧ t = s) ∨
        (s.terminated = false ∧ s.activeCores = [] ∧ t = { s with terminated := true }) ∨
        (s.terminated = false ∧ s.activeCores ≠ [] ∧
          ∃ u, serviceCores s.activeCores s = .next u ∧ t = { u with cycles := u.cycles + 1 })) := by
  unfold step schedulerStep at h
  split at h
  · cases h
  · rename_i hc
    refine ⟨hc, ?_⟩
    split at h
    · rename_i ht
      cases h
      exact .inl ⟨ht, rfl⟩
    · rename_i ht
      have ht : s.terminated = false := by simpa using ht
      split at h
      · rename_i ha
        cases h
        exact .inr (.inl ⟨ht, by simpa using ha, rfl⟩)
      · rename_i ha
        obtain ⟨u, hu, hn⟩ := chain_eq_next.1 h
        cases hn
        exact .inr (.inr ⟨ht, by simpa using ha, u, hu, rfl⟩)

/-- With each core executing its own records, what a step that answers next did to each core. -/
theorem step_core {s t : State} (hown : OwnRecords s) (h : step s = .next t) (hterm : s.terminated = false) (c : Nat) :
    t.cores[c]? = if s.coreActive c then (s.cores[c]?).map (coreNext c s.prog s.lat s.fwd) else s.cores[c]? := by
  rcases (step_next h).2 with ⟨ht, _⟩ | ⟨_, ha, rfl⟩ | ⟨_, _, u, hu, rfl⟩
  · simp [ht] at hterm
  · have : s.coreActive c = false := by
      rw [Bool.eq_false_iff, ne_eq, ← mem_activeCores, ha]; simp
    simp [this]
  · simp only [serviceCores_own (activeCores_nodup s) (fun c _ => hown c) hu, mem_activeCores]

/-- A run of one step more is the step, then the run. -/
theorem run_succ (n : Nat) (s : State) :
    Host.Core.run Sys2Proof.core (n + 1) s = chain (step s) (Host.Core.run Sys2Proof.core n) := by
  refine (Host.Core.run.eq_2 Sys2Proof.core s n).trans ?_
  have same : Sys2Proof.core.step s = step s := rfl
  rw [same]
  generalize step s = o
  cases o <;> rfl

end Sys2Proof.Machine
end

