-- ==== Sys2Proof/Laws/Interface.lean ====
section
/-! SUPPORT. The block interface: what a call before a run answers, and the index on the program port in closed form. -/

namespace Sys2Proof.Machine

/-- A call of the interface goes through exactly when no run has started. -/
theorem beforeRun_eq_next {s t u : State} : beforeRun s t = .next u ↔ s.runStarted = false ∧ u = t := by
  unfold beforeRun
  cases s.runStarted <;> simp [eq_comm]

/-- Populating leaves DMEM in its canonical form. -/
theorem populate_wf {vs : List Int} {s t : State} (h : populate vs s = .next t) : t.dmem.wf := by
  obtain ⟨-, rfl⟩ := beforeRun_eq_next.1 h
  exact Memory.ofArray_wf vs

/-- The Executor's part of a core that executes its own records. -/
theorem executePart_own {s : State} {c : Nat} {k : CoreState} (hk : s.cores[c]? = some k)
    (hown : ∀ e ∈ k.slots.e, e.instr.coreId = c) :
    ∃ u, executePart k.slots s = .next u ∧ SameRun s u ∧ u.cores[c]? = some (executedCore k) := by
  unfold executePart executedCore
  cases he : k.slots.e with
  | none => exact ⟨s, rfl, .refl s, hk⟩
  | some e =>
    by_cases hl : 1 < e.lr
    · exact ⟨s, by simp [hl], .refl s, by simp [Slots.exBusy, he, hl, hk]⟩
    · have hc := hown e (by simp [he])
      refine ⟨s.updateCore c (execCore e.instr), ?_, sameRun_updateCore _ _ _, by simp [Slots.exBusy, he, hl, hk]⟩
      simp only [hl, if_false]
      rw [exec_eq_onCore, hc, onCore_of_core _ hk]

/-- The index on the program port of a core that executes its own records (R161, R170). -/
theorem progRdIdx_closed {s : State} {c : Nat} {k : CoreState} (hk : s.cores[c]? = some k)
    (hown : ∀ e ∈ k.slots.e, e.instr.coreId = c) (ht : s.terminated = false) :
    s.progRdIdx c =
      if k.slots.stalledNext s.fwd k.stalled || (k.slots.fHeld s.fwd).isSome then none
      else fetchIndex (executedCore k).pc s.prog.length := by
  obtain ⟨u, hu, hr, huc⟩ := executePart_own hk hown
  unfold State.progRdIdx
  rw [ht, beforeNewFetch_closed hk, hu]
  simp [newFetchIndex, huc, hr.prog, hr.fwd]

end Sys2Proof.Machine
end

