-- ==== Sys2Proof/Laws/PerInstr.lean ====
section
/-! SUPPORT. A statement about every instruction as syntax, one lemma a constructor: a record is its opcode and the fields
R30 lists, and nothing more, so that building it again from them gives it back. -/

namespace Sys2Proof.Laws.Rebuild

/-- The record is determined by its opcode and its fields (R30), and its rewrite with its own source fields is itself. -/
def Statement (i : Instr) : Prop :=
  Instr.ofFields i.opcode i.coreId i.originPc i.rd i.rs1 i.rs2 i.imm = i ∧ i.withSources i.rs1 i.rs2 = i

theorem jal (c : Nat) (o : Word) (rd rs1 rs2 : RegField) (v : Word) : Statement (.jal c o rd rs1 rs2 v) := ⟨rfl, rfl⟩
theorem bne (c : Nat) (o : Word) (rd rs1 rs2 : RegField) (v : Word) : Statement (.bne c o rd rs1 rs2 v) := ⟨rfl, rfl⟩
theorem add (c : Nat) (o : Word) (rd rs1 rs2 : RegField) (v : Word) : Statement (.add c o rd rs1 rs2 v) := ⟨rfl, rfl⟩
theorem sub (c : Nat) (o : Word) (rd rs1 rs2 : RegField) (v : Word) : Statement (.sub c o rd rs1 rs2 v) := ⟨rfl, rfl⟩
theorem swap (c : Nat) (o : Word) (rd rs1 rs2 : RegField) (v : Word) : Statement (.swap c o rd rs1 rs2 v) := ⟨rfl, rfl⟩
theorem unknown (c : Nat) (o : Word) (rd rs1 rs2 : RegField) (v : Word) : Statement (.unknown c o rd rs1 rs2 v) :=
  ⟨rfl, rfl⟩

end Sys2Proof.Laws.Rebuild
end

