-- ==== Sys2Proof/Laws/Text.lean ====
section
/-! SUPPORT. The transcriber, line by line: how a text is cut into lines, and what transcribing the lines answers. -/

namespace Sys2Proof

/-- A text without a cutting character is one piece. -/
theorem cutAt_uncut {p : Char → Bool} {l : List Char} (h : ∀ c ∈ l, p c = false) : cutAt p l = [l] := by
  induction l with
  | nil => rfl
  | cons c cs ih => simp [cutAt, h c (by simp), ih fun d hd => h d (by simp [hd])]

/-- The first piece ends at the first cutting character. -/
theorem cutAt_first {p : Char → Bool} {x : Char} (hx : p x = true) {l : List Char} (r : List Char)
    (h : ∀ c ∈ l, p c = false) : cutAt p (l ++ x :: r) = l :: cutAt p r := by
  induction l with
  | nil => simp [cutAt, hx]
  | cons c cs ih => simp [cutAt, h c (by simp), ih fun d hd => h d (by simp [hd])]

/-- The transcriber's test for a comment marker finds the markers of log 7 and nothing else. -/
theorem hasCommentMarker_eq_true {l : List Char} : hasCommentMarker l = true ↔ HoldsMarker l := by
  induction l with
  | nil => simp [hasCommentMarker, HoldsMarker]
  | cons c cs ih =>
    have slash : ['/', '/'] <:+: c :: cs ↔ (c = '/' ∧ cs.head? = some '/') ∨ ['/', '/'] <:+: cs := by
      rw [List.infix_cons_iff, List.cons_prefix_cons]
      refine or_congr_left (and_congr eq_comm ?_)
      cases cs with
      | nil => simp
      | cons d ds => rw [List.cons_prefix_cons, List.head?_cons, Option.some_inj]; simp [eq_comm]
    simp only [hasCommentMarker, Bool.or_eq_true, ih, HoldsMarker, slash, Bool.and_eq_true, beq_iff_eq, List.mem_cons,
      eq_comm (a := c)]
    tauto

theorem cutAt_ne_nil (p : Char → Bool) (l : List Char) : cutAt p l ≠ [] := by
  cases l with
  | nil => simp [cutAt]
  | cons c cs =>
    simp only [cutAt]
    split
    · simp
    · split <;> simp

/-- White space before a line adds no token. -/
theorem tokens_leading {before : List Char} (h : ∀ c ∈ before, isSpace c = true) (l : List Char) :
    tokens (before ++ l) = tokens l := by
  induction before with
  | nil => rfl
  | cons c cs ih =>
    rw [← ih fun d hd => h d (by simp [hd])]
    simp [tokens, cutAt, h c (by simp)]

/-- A token followed by white space, or by the end of the line, is the first token. -/
theorem tokens_first {t after : List Char} (hne : t ≠ []) (h : ∀ c ∈ t, isSpace c = false)
    (ha : ∀ c ∈ after.head?, isSpace c = true) : tokens (t ++ after) = t :: tokens after := by
  cases after with
  | nil => simp [tokens, cutAt_uncut h, hne, cutAt]
  | cons c cs =>
    have hc := ha c rfl
    simp [tokens, cutAt_first hc cs h, hne, cutAt, hc]

/-- The tokens of a line are those it is made of, whatever the white space. -/
theorem tokens_of_spaced {ts : List (List Char)} {line : List Char} (h : SpacedTokens ts line) : tokens line = ts := by
  induction ts generalizing line with
  | nil =>
    have := tokens_leading h []
    rw [List.append_nil] at this
    rw [this]; rfl
  | cons t ts ih =>
    obtain ⟨before, after, rfl, hb, hne, ht, ha, hrest⟩ := h
    rw [tokens_leading hb, tokens_first hne ht ha, ih hrest]

/-- A line without comma and comment marker is read by its tokens. -/
theorem transcribeLine_of_spaced {ts : List (List Char)} {line : List Char} (hc : ',' ∉ line) (hm : ¬ HoldsMarker line)
    (h : SpacedTokens ts line) : transcribeLine line = templateOfTokens ts := by
  have hm' : hasCommentMarker line = false := by rw [Bool.eq_false_iff, ne_eq, hasCommentMarker_eq_true]; exact hm
  simp [transcribeLine, hc, hm', tokens_of_spaced h]

/-- Transcribing lines succeeds exactly when each line does, with the templates in the lines' order. -/
theorem transcribeLines_eq_ok {ls : List (List Char)} {ts : List Template} :
    transcribeLines ls = .ok ts ↔ ls.map transcribeLine = ts.map .ok := by
  induction ls generalizing ts with
  | nil => cases ts <;> simp [transcribeLines]
  | cons l ls ih =>
    cases hl : transcribeLine l with
    | error e => cases ts <;> simp [transcribeLines, hl]
    | ok t =>
      cases hr : transcribeLines ls with
      | ok rest => cases ts <;> simp [transcribeLines, hl, hr, ← ih]
      | error e =>
        cases ts with
        | nil => simp [transcribeLines, hl, hr]
        | cons u us =>
          have := (ih (ts := us)).2.mt (by simp [hr])
          simp [transcribeLines, hl, hr, this]

/-- A refused text has a refused line, under the same name. -/
theorem transcribeLines_eq_error {ls : List (List Char)} {e : TextRefusal} (h : transcribeLines ls = .error e) :
    ∃ l ∈ ls, transcribeLine l = .error e := by
  induction ls with
  | nil => cases h
  | cons l ls ih =>
    cases hl : transcribeLine l with
    | error e' =>
      simp only [transcribeLines, hl] at h
      cases h
      exact ⟨l, by simp, hl⟩
    | ok t =>
      cases hr : transcribeLines ls with
      | ok ts => simp [transcribeLines, hl, hr] at h
      | error e' =>
        simp only [transcribeLines, hl, hr] at h
        cases h
        obtain ⟨m, hm, he⟩ := ih hr
        exact ⟨m, by simp [hm], he⟩

end Sys2Proof
end

