-- ==== Sys2Proof/Tests/Slice0.lean ====
section
/-! SUPPORT. The model's own tests. 1: the well-formedness checks refuse ill-formed terms. 2: decoding, against words and
lines written out from the spec (30_encoding.md R71 to R82; the vectors are those of 95_test_vectors.md). 3: one step of
the Executor and of the units, against the vectors V-E, V-H, V-L and V-S. 4: for each statement with hypotheses, a witness
that meets them. -/

namespace Sys2Proof.Tests

open Sys2Proof.Machine

/-! ## Helpers -/

/-- Core 0 with some registers written and a pc. -/
def testCore (regs : List (RegIx × Word)) (pc : Word) : CoreState :=
  regs.foldl (fun k p => k.writeReg p.1 p.2) { CoreState.construct 0 with pc := pc }

/-- A block of one core. -/
def testState (k : CoreState) (prog : List Template) : State :=
  { State.construct { Params.standard with prog := prog } with cores := [k] }

/-- The listed registers and the pc of core 0 after an outcome. -/
def shows (o : Host.Outcome State Fault Refusal) (rs : List RegIx) : Option (List Word × Word) :=
  match o with
  | .next t => t.cores[0]?.map fun k => (rs.map k.readReg, k.pc)
  | _ => none

/-- The block `n` cycles after construction. -/
def stateAfter (p : Params) (n : Nat) : State :=
  match Host.Core.run Sys2Proof.core n (State.construct p) with
  | .next t => t
  | _ => State.construct p

/-- The template of a line of four tokens at most, or NOP's where the line is refused. -/
def line (l : String) : Template :=
  match transcribeLine l.toList with
  | .ok t => t
  | .error _ => { opcode := .unknown, rd := none, rs1 := none, rs2 := none, imm := 0 }

/-- The parameters of a run of one core. -/
def running (lines : List String) : Params := { Params.standard with prog := lines.map line }

/-- A dependent pair and an instruction behind it (V-S3). -/
def dependent : Params := running ["ADD x1 x2 x3", "ADD x4 x1 x5", "NOP"]

/-- The same three with a latency of 3. -/
def slow : Params := { dependent with lat := { LatTable.default with add := 3 } }

/-- The record of a line fetched at a pc by core 0. -/
def fetched (pc : Word) (l : String) : Instr := fetchRecord 0 pc (line l)

/-! ## 1. Well-formedness -/

theorem test_record_of_no_core_is_ill_formed : ¬ (Instr.add 2 0 (some 1) (some 2) (some 3) 0).WellFormed 2 := by decide
theorem test_record_of_last_core_is_well_formed : (Instr.add 1 0 (some 1) (some 2) (some 3) 0).WellFormed 2 := by decide
theorem test_jal_latency_zero_is_ill_formed : ¬ ({ LatTable.default with jal := 0 } : LatTable).WellFormed := by decide
theorem test_bne_latency_zero_is_ill_formed : ¬ ({ LatTable.default with bne := 0 } : LatTable).WellFormed := by decide
theorem test_add_latency_zero_is_ill_formed : ¬ ({ LatTable.default with add := 0 } : LatTable).WellFormed := by decide
theorem test_sub_latency_zero_is_ill_formed : ¬ ({ LatTable.default with sub := 0 } : LatTable).WellFormed := by decide
theorem test_swap_latency_zero_is_ill_formed : ¬ ({ LatTable.default with swap := 0 } : LatTable).WellFormed := by decide
theorem test_no_cores_is_ill_formed : ¬ ({ Params.standard with numCores := 0 } : Params).WellFormed := by decide
theorem test_bad_latency_is_ill_formed :
    ¬ ({ Params.standard with lat := { LatTable.default with sub := 0 } } : Params).WellFormed := by decide
theorem test_jal_register_and_number_is_not_textual :
    ¬ Template.Textual { opcode := .jal, rd := some 1, rs1 := some 5, rs2 := none, imm := 4 } := by decide
theorem test_bne_register_and_number_is_not_textual :
    ¬ Template.Textual { opcode := .bne, rd := some 1, rs1 := some 5, rs2 := some 0, imm := 4 } := by decide
theorem test_add_with_immediate_is_not_textual :
    ¬ Template.Textual { opcode := .add, rd := some 1, rs1 := some 5, rs2 := some 0, imm := 1 } := by decide

/-! ## 2. Decoding: the stage register (R82), words from 95_test_vectors.md or laid out by hand -/

/-- Bits: valid 1, opcode 000, rd 1 00001, rs1 0 00000, rs2 0 00000, imm 10. -/
theorem test_decode_jal : decodeTableWord 54 0x00000002800211 = some (.jal 0 0 (some 1) none none 10) := by decide
theorem test_decode_bne : decodeTableWord 54 0x00000002008A13 = some (.bne 0 0 (some 1) (some 2) none 8) := by decide
theorem test_decode_add : decodeTableWord 54 0x00000000238A15 = some (.add 0 0 (some 1) (some 2) (some 3) 0) := by decide
/-- Opcode 011, rd 1 00111, rs1 1 00110, rs2 1 00101. -/
theorem test_decode_sub :
    decodeTableWord 54 0b100101_100110_100111_011_1 = some (.sub 0 0 (some 7) (some 6) (some 5) 0) := by decide
theorem test_decode_swap : decodeTableWord 54 0x00000000269609 = some (.swap 0 0 (some 0) (some 5) (some 6) 0) := by decide
theorem test_decode_unknown : decodeTableWord 54 0x0F = some (.unknown 0 0 none none none 0) := by decide
/-- `origin_pc` is bits [85:54], `core_id` stands above it: core 2 of 3 at pc 100. -/
theorem test_decode_origin_and_core :
    decodeSlot 3 (0x238A15 + 100 * 2 ^ 54 + 2 * 2 ^ 86) = .ok (some (.add 2 100 (some 1) (some 2) (some 3) 0)) := by rfl
theorem test_decode_core_out_of_range : decodeSlot 3 (0x238A15 + 3 * 2 ^ 86) = .error (.coreOutOfRange 3) := by rfl
theorem test_decode_empty : decodeSlot 1 0x238A14 = .ok none := by rfl
theorem test_decode_reserved : decodeSlot 1 0b1011 = .error (.reservedOpcode 5) := by rfl
theorem test_encode_add : encode (.add 0 0 (some 1) (some 2) (some 3) 0) = 0x238A15 := by decide

/-! ## 2. Decoding: program text -/

theorem test_text_jal_hex : -- V-T13
    transcribeLine "JAL x1 0x10".toList = .ok { opcode := .jal, rd := some 1, rs1 := none, rs2 := none, imm := 16 } := by
  rfl
theorem test_text_bne_negative_hex : -- V-T17
    transcribeLine "BNE x1 x2 -0x10".toList =
      .ok { opcode := .bne, rd := some 1, rs1 := some 2, rs2 := none, imm := 0 } := by rfl
theorem test_text_add_index_too_big : -- V-T8
    transcribeLine "ADD x32 x1 x2".toList =
      .ok { opcode := .add, rd := none, rs1 := some 1, rs2 := some 2, imm := 0 } := by rfl
theorem test_text_sub : -- V-T5
    transcribeLine "SUB x7 x6 x5".toList =
      .ok { opcode := .sub, rd := some 7, rs1 := some 6, rs2 := some 5, imm := 0 } := by rfl
theorem test_text_swap : -- V-T4
    transcribeLine "SWAP x0 x5 x6".toList =
      .ok { opcode := .swap, rd := some 0, rs1 := some 5, rs2 := some 6, imm := 0 } := by rfl
theorem test_text_unknown : -- V-T7
    transcribeLine "MUL x1 x2 x3".toList =
      .ok { opcode := .unknown, rd := some 1, rs1 := some 2, rs2 := some 3, imm := 0 } := by rfl
theorem test_text_case_variant : transcribeLine "add x1 x2 x3".toList = .error (.caseVariant .add) := by rfl -- V-T21
theorem test_text_comma : transcribeLine "ADD x1, x2, x3".toList = .error .comma := by rfl -- V-T22
theorem test_text_out_of_range : -- V-T23
    transcribeLine "JAL x1 4294967296".toList = .error (.immOutOfRange 4294967296) := by rfl
theorem test_text_too_many : transcribeLine "ADD x1 x2 x3 x4".toList = .error (.tooManyTokens 5) := by rfl -- V-T24

/-! ## 3. The Executor: at most two vectors an opcode -/

theorem test_jal_pipelined : -- V-E16
    shows (exec (fetched 100 "JAL x1 10") (testState (testCore [] 112) [])) [1] = some ([104], 122) := by decide
theorem test_jal_wraps : -- V-E20
    shows (exec (fetched 0 "JAL x1 16") (testState (testCore [] 2147483640) [])) [1] = some ([4], -2147483640) := by decide
theorem test_bne_taken : -- V-E25
    shows (exec (fetched 20 "BNE x2 x0 -24") (testState (testCore [(2, 8)] 36) [])) [2, 0] = some ([8, 0], 12) := by decide
theorem test_bne_not_taken : -- V-E21
    shows (exec (fetched 200 "BNE x1 x2 8") (testState (testCore [(1, 4), (2, 4)] 200) [])) [] = some ([], 204) := by decide
theorem test_add_wraps : -- V-E3
    shows (exec (fetched 0 "ADD x1 x2 x3") (testState (testCore [(2, -2147483648), (3, -1)] 0) [])) [1, 2, 3] =
      some ([2147483647, -2147483648, -1], 4) := by decide
theorem test_add_into_its_source : -- V-E4
    shows (exec (fetched 0 "ADD x1 x1 x1") (testState (testCore [(1, 5)] 0) [])) [1] = some ([10], 4) := by decide
theorem test_sub_order : -- V-E8
    shows (exec (fetched 0 "SUB x7 x6 x5") (testState (testCore [(6, 4), (5, 8)] 0) [])) [7] = some ([-4], 4) := by decide
theorem test_sub_wraps : -- V-E9
    shows (exec (fetched 0 "SUB x1 x2 x3") (testState (testCore [(2, -2147483648), (3, 1)] 0) [])) [1] =
      some ([2147483647], 4) := by decide
theorem test_swap : -- V-E12
    shows (exec (fetched 0 "SWAP x0 x5 x6") (testState (testCore [(5, 3), (6, 9)] 0) [])) [0, 5, 6] =
      some ([0, 9, 3], 4) := by decide
theorem test_swap_absent_rd : -- V-E14
    shows (exec (fetched 0 "SWAP foo x5 x6") (testState (testCore [(5, 1), (6, 2)] 0) [])) [5, 6] =
      some ([2, 1], 4) := by decide
theorem test_unknown : -- V-E30
    shows (exec (fetched 0 "MUL x1 x2 x3") (testState (testCore [(2, 3), (3, 4)] 0) [])) [1, 2, 3] =
      some ([0, 3, 4], 4) := by decide

/-! ## 3. The units and the scheduler -/

/-- Slots with a decode and an execute instruction. -/
def decodeAndExecute (d e : String) : Slots :=
  { Slots.empty with d := some (fetched 4 d), e := some { instr := fetched 0 e, lr := 1 } }

theorem test_hazard_bne_destination : -- V-H6
    hazardUnit (decodeAndExecute "ADD x4 x1 x5" "BNE x1 x2 8") false 0 = (true, 1) := by decide
theorem test_hazard_swap_writes_do_not_count : -- V-H7
    hazardUnit (decodeAndExecute "ADD x4 x5 x6" "SWAP x0 x5 x6") false 0 = (false, 0) := by decide
theorem test_hazard_forwarding : -- V-H1
    hazardUnit (decodeAndExecute "ADD x4 x1 x5" "ADD x1 x2 x3") true 0 = (false, 0) := by decide
/-- V-L5: with LAT(ADD) = 3 the counter is 3 at the end of cycle 2, and the NOP behind it waits in decode to the end of
cycle 4. -/
theorem test_latency_three :
    let p := { running ["ADD x1 x2 x3", "NOP"] with lat := { LatTable.default with add := 3 } }
    (stateAfter p 3).cores.map (fun k => (k.slots.e, k.slots.d)) =
        [(some { instr := fetched 0 "ADD x1 x2 x3", lr := 3 }, some (fetched 4 "NOP"))] ∧
      (stateAfter p 6).cores.map (fun k => (k.slots.e, k.slots.m, k.pc)) =
        [(some { instr := fetched 4 "NOP", lr := 1 }, some (fetched 0 "ADD x1 x2 x3"), 12)] := by decide
/-- V-S5: an empty program. -/
theorem test_empty_program : (stateAfter Params.standard 1).terminated = true := by decide
/-- V-S1's third cycle onwards: the port asks for entries 0 and 1, then for none beyond the program of two. -/
theorem test_program_port :
    let p := running ["ADD x1 x2 x3", "NOP"]
    (stateAfter p 0).outputs.progRdIdx = [some 0] ∧ (stateAfter p 1).outputs.progRdIdx = [some 1] ∧
      (stateAfter p 2).outputs.progRdIdx = [none] := by decide
/-- The word the host places runs in the next step. -/
theorem test_fetch_word_runs :
    shows (step (State.reset.withFetchWord 56 0x2800211)) [1] = some ([4], 10) := by decide

/-! ## 4. Witnesses: each statement's hypotheses are met, clause by clause -/

theorem witness_ConstructedRegisters : 4 < ({ Params.standard with numCores := 5 } : Params).numCores := by decide
theorem witness_ConstructedStateMeetsInvariant : dependent.WellFormed := by decide
theorem witness_StepKeepsInvariant :
    (stateAfter dependent 3).Inv ∧ ∃ t, step (stateAfter dependent 3) = .next t := ⟨by decide, _, rfl⟩

/-- One core, x1 = 4, x2 = 5, x3 = 4. -/
def regsState : State := testState (testCore [(1, 4), (2, 5), (3, 4)] 40) []

/-- JAL, BNE, ADD, SUB, SWAP, UNKNOWN and ExecutorPcCases: their hypothesis on the state, with the two cases of BNE: x1 and
x2 differ, x1 and x3 are equal. -/
theorem witness_Executor_statements :
    ∃ k, regsState.cores[0]? = some k ∧ k.readReg 1 ≠ k.readReg 2 ∧ k.readReg 1 = k.readReg 3 :=
  ⟨testCore [(1, 4), (2, 5), (3, 4)] 40, by decide⟩
/-- The clauses with an ABSENT field, on the same state: each of the fields alone. -/
theorem witness_absent_fields :
    regsState.cores[0]? = some (testCore [(1, 4), (2, 5), (3, 4)] 40) ∧ ((line "BNE foo x1 4").rd = none ∧ (line "BNE foo x1 4").rs1 = some 1) ∧ (line "BNE x1 foo 4").rs1 = none ∧
      (line "ADD x32 x1 x2").rd = none ∧ (line "SUB x1 X1 x2").rs1 = none ∧ (line "ADD x1 x2").rs2 = none ∧
      (line "SWAP x0 foo x2").rs1 = none ∧ (line "SWAP x0 x5").rs2 = none := by decide
/-- The HazardUnit's clauses of BNE, SWAP and UNKNOWN: a producer in execute whose `rd` the decode instruction names. -/
theorem witness_hazard_clauses :
    (decodeAndExecute "ADD x4 x1 x5" "BNE x1 x2 8").holdsProducer (.bne 0 0 (some 1) (some 2) none 8) ∧
      (decodeAndExecute "ADD x4 x0 x9" "SWAP x0 x5 x6").holdsProducer (.swap 0 0 (some 0) (some 5) (some 6) 0) ∧
      (decodeAndExecute "ADD x4 x5 x1" "MUL x1 x2 x3").holdsProducer (.unknown 0 0 (some 1) (some 2) (some 3) 0) ∧
      (decodeAndExecute "ADD x4 x5 x1" "MUL x1 x2 x3").d = some (.add 0 4 (some 4) (some 5) (some 1) 0) :=
  ⟨.inl rfl, .inl rfl, .inl rfl, rfl⟩
/-- The longest unknown line, and a token that is no opcode in any case. -/
theorem witness_UnknownOnlyAdvancesPc :
    [['x', '1'], ['x', '2'], ['x', '3']].length ≤ 3 ∧
      ∀ op, op ≠ .unknown → ['M', 'U', 'L'] ≠ opcodeToken op ∧ ['M', 'U', 'L'].map upperChar ≠ opcodeToken op := by
  refine ⟨by decide, fun op _ => ?_⟩
  cases op <;> decide
theorem witness_ExecutorConfinedToItsCore :
    (∃ t, exec (fetched 0 "ADD x1 x2 x3") regsState = .next t) ∧ (fetched 0 "ADD x1 x2 x3").WellFormed 1 ∧
      ¬ (Instr.jal 1 0 (some 1) none none 4).WellFormed regsState.cores.length :=
  ⟨⟨_, rfl⟩, by decide, by decide⟩
/-- The last core of a block whose number of cores is no power of 2, with every bit of every field 1. -/
theorem witness_StageRegisterRoundTrip :
    (Instr.unknown 4 (-1) (some 31) (some 31) (some 31) (-1)).WellFormed 5 ∧ 1 ≤ (1 : Nat) := by decide
theorem witness_StageRegisterEmptyAndReserved :
    0 % 2 = 0 ∧ (11 % 2 = 1 ∧ 11 / 2 % 8 = 5) ∧ (2 ^ 54 - 3) % 2 = 1 ∧ (2 ^ 54 - 3) / 2 % 8 = 6 := by decide
/-- Textual templates of each shape: a number, a register in the shared position, no immediate. -/
theorem witness_ProgramLineRoundTrip :
    (line "JAL x1 -2147483648").Textual ∧ (line "BNE x1 x2 x3").Textual ∧ (line "SWAP foo x5 x6").Textual := by decide
theorem witness_TranscribedTemplatesAreTextual :
    transcribeLine "BNE x1 x2 8".toList = .ok { opcode := .bne, rd := some 1, rs1 := some 2, rs2 := none, imm := 8 } := by
  rfl
theorem witness_RegisterTokenParsing :
    digits 10 ['0', '3', '2'] = some 32 ∧ 'X' ≠ 'x' ∧ Spells 10 ['0', '3', '1'] 31 ∧ Spells 10 ['3', '2'] 32 ∧
      NoDigits 10 ['1', 'a'] :=
  ⟨by decide, by decide, ⟨[0, 3, 1], by decide, by decide, by decide, by simp [smallDigits]⟩,
    ⟨[3, 2], by decide, by decide, by decide, by simp [smallDigits]⟩, .inr ⟨'a', by decide⟩⟩
theorem witness_ImmediateParsing :
    (0 < 2147483648 ∧ 2147483648 ≤ 2147483648) ∧
      digits 16 ['8', '0', '0', '0', '0', '0', '0', '0'] = some 2147483648 ∧ digits 2 ['1', '0', '1'] = some 5 ∧
      parseNumber ['1', '2', 'a'] = none := by decide
/-- Digits by their values: the largest word and the value beyond it, letters of both cases, a sign's operand; and digit
strings that fail, after a prefix, after a sign (V-T17) and bare (V-T16). -/
theorem witness_ImmediateParsing_digits :
    Spells 16 ['7', 'f', 'F', 'f', 'F', 'f', 'F', 'f'] 2147483647 ∧ Spells 2 ['0', '1'] 1 ∧
      Spells 10 ['0', '2', '1', '4', '7', '4', '8', '3', '6', '4', '8'] 2147483648 ∧
      NoDigits 16 [] ∧ NoDigits 2 ['1', '2'] ∧ NoDigits 10 ['0', 'x', '1', '0'] ∧
      ('1' ≠ '+' ∧ '1' ≠ '-' ∧ NoDigits 10 ['1', '2', 'a', 'b']) :=
  ⟨⟨[7, 15, 15, 15, 15, 15, 15, 15], by decide, by decide, by decide, by simp [smallDigits, capitalDigits]⟩,
    ⟨[0, 1], by decide, by decide, by decide, by simp [smallDigits]⟩,
    ⟨[0, 2, 1, 4, 7, 4, 8, 3, 6, 4, 8], by decide, by decide, by decide, by simp [smallDigits]⟩,
    .inl rfl, .inr ⟨'2', by decide⟩, .inr ⟨'x', by decide⟩, by decide, by decide, .inr ⟨'a', by decide⟩⟩
/-- Lines with each marker; a line of five tokens and one of a case variant, with more than one blank and a tab between. -/
theorem witness_TranscriberRefusals_lines :
    (HoldsMarker ['#'] ∧ HoldsMarker ['a', ';'] ∧ HoldsMarker ['N', '/', '/'] ∧ ¬ HoldsMarker ['/', 'a', '/']) ∧
      (',' ∉ ['a', 'd', 'd', ' ', '\t', 'x', '1'] ∧ ¬ HoldsMarker ['a', 'd', 'd', ' ', '\t', 'x', '1'] ∧
        SpacedTokens [['a', 'd', 'd'], ['x', '1']] ['a', 'd', 'd', ' ', '\t', 'x', '1']) ∧
      SpacedTokens [['N'], ['1'], ['2'], ['3'], ['4']] [' ', 'N', ' ', '1', ' ', ' ', '2', ' ', '3', '\t', '4', ' '] ∧
      transcribeLine [' ', 'N', ' ', '1', ' ', ' ', '2', ' ', '3', '\t', '4', ' '] = .error (.tooManyTokens 5) := by
  refine ⟨⟨by decide, by decide, by decide, by decide⟩, ⟨by decide, by decide, ?_⟩, ?_, by rfl⟩
  · refine ⟨[], [' ', '\t', 'x', '1'], rfl, ?_⟩
    refine ⟨by simp, by simp, by simp [isSpace], by simp [isSpace], [' ', '\t'], [], rfl, ?_⟩
    simp [SpacedTokens, isSpace]
  · refine ⟨[' '], [' ', '1', ' ', ' ', '2', ' ', '3', '\t', '4', ' '], rfl, by simp [isSpace], by simp, by simp [isSpace],
      by simp [isSpace], [' '], [' ', ' ', '2', ' ', '3', '\t', '4', ' '], rfl, by simp [isSpace], by simp,
      by simp [isSpace], by simp [isSpace], [' ', ' '], [' ', '3', '\t', '4', ' '], rfl, ?_⟩
    refine ⟨by simp [isSpace], by simp, by simp [isSpace], by simp [isSpace], [' '], ['\t', '4', ' '], rfl, ?_⟩
    refine ⟨by simp [isSpace], by simp, by simp [isSpace], by simp [isSpace], ['\t'], [' '], rfl, ?_⟩
    simp [SpacedTokens, isSpace]
theorem witness_TranscriberRefusals :
    ',' ∈ "ADD x1, x2".toList ∧ 4 < (tokens "ADD x1 x2 x3 x4".toList).length ∧
      ['a', 'd', 'd'] ≠ opcodeToken .add ∧ ['a', 'd', 'd'].map upperChar = opcodeToken .add := by decide

/-- The start of new fetch with a chosen core and program. -/
def fetchWork (k : CoreState) (f : Option Instr) : CycleWork :=
  { st := testState k [line "NOP"], nxt := { Slots.empty with f := f }, exBusy := false }

/-- A fetch (pc 3, the last of entry 0), and the cases without one: stalled, slot filled, nothing at the pc (4). -/
theorem witness_NewFetchBuildsRecord :
    ((testCore [] 3).stalled = false ∧ (fetchWork (testCore [] 3) none).nxt.f = none ∧
        entryAt [line "NOP"] (testCore [] 3).pc = some (line "NOP")) ∧
      ({ testCore [] 0 with stalled := true } : CoreState).stalled = true ∧
      (fetchWork (testCore [] 3) (some (fetched 0 "NOP"))).nxt.f ≠ none ∧
      entryAt [line "NOP"] (testCore [] 4).pc = none ∧
      (fetchWork (testCore [] 3) none).st.cores[0]? = some (testCore [] 3) := by decide
theorem witness_ForwardingSwitchesHazardOff :
    (stateAfter { dependent with fwd := true } 3).fwd = true ∧
      ∃ t, step (stateAfter { dependent with fwd := true } 3) = .next t := ⟨by decide, _, rfl⟩

/-- The core of a block of one core. -/
def core0 (s : State) : CoreState := s.cores.headD (CoreState.construct 0)

/-- A decode instruction with an empty execute slot, and one behind a counter at 1. -/
theorem witness_ExecuteEntryLooksUpLatency :
    ((stateAfter dependent 2).cores[0]? = some (core0 (stateAfter dependent 2)) ∧
        (core0 (stateAfter dependent 2)).slots.d = some (fetched 0 "ADD x1 x2 x3") ∧
        (core0 (stateAfter dependent 2)).slots.e = none ∧ (stateAfter dependent 2).terminated = false) ∧
      (core0 (stateAfter dependent 3)).slots.d = some (fetched 4 "ADD x4 x1 x5") ∧
      (core0 (stateAfter dependent 3)).slots.e = some { instr := fetched 0 "ADD x1 x2 x3", lr := 1 } := by decide
theorem witness_ExecuteEntry_steps : ∃ t k', step (stateAfter dependent 2) = .next t ∧ t.cores[0]? = some k' :=
  ⟨_, _, rfl, rfl⟩
theorem witness_StepRunsDecodedInstruction :
    (stateAfter dependent 3).cores = [core0 (stateAfter dependent 3)] ∧ (stateAfter dependent 3).lat.WellFormed ∧
      (stateAfter dependent 3).terminated = false ∧
      decodeSlot 1 0x238A15 = .ok (some (fetched 0 "ADD x1 x2 x3")) ∧
      (core0 (stateAfter dependent 3)).slots.e = some { instr := fetched 0 "ADD x1 x2 x3", lr := 1 } :=
  ⟨by decide, by decide, by decide, rfl, by decide⟩
theorem witness_NothingDiscarded :
    (stateAfter dependent 3).coreActive 0 = true ∧ (stateAfter dependent 3).terminated = false ∧
      ∃ t k', step (stateAfter dependent 3) = .next t ∧ t.cores[0]? = some k' :=
  ⟨by decide, by decide, _, _, rfl, rfl⟩
/-- Execute counting from 3, decode and fetch occupied; the next state exists. -/
theorem witness_StructuralHold :
    (stateAfter slow 3).Inv ∧ (stateAfter slow 3).terminated = false ∧
      (stateAfter slow 3).cores[0]? = some (core0 (stateAfter slow 3)) ∧
      (core0 (stateAfter slow 3)).slots.e = some { instr := fetched 0 "ADD x1 x2 x3", lr := 3 } ∧
      (core0 (stateAfter slow 3)).slots.d = some (fetched 4 "ADD x4 x1 x5") ∧
      (core0 (stateAfter slow 3)).slots.f = some (fetched 8 "NOP") ∧
      ∃ t k', step (stateAfter slow 3) = .next t ∧ t.cores[0]? = some k' :=
  ⟨by decide, by decide, by decide, by decide, by decide, by decide, _, _, rfl, rfl⟩
/-- V-S3: in the fourth cycle the third instruction stalls, and the stall is counted. -/
theorem witness_StallsCountHazardStalls :
    (stateAfter dependent 3).stallsAt 0 = true ∧ (stateAfter dependent 3).stalls = 0 ∧
      (stateAfter dependent 3).terminated = false ∧ step (stateAfter dependent 3) = .next (stateAfter dependent 4) ∧
      (stateAfter dependent 4).stalls = 1 := ⟨by decide, by decide, by decide, rfl, by decide⟩
theorem witness_CycleCountAndTermination :
    (State.reset.refusedConfig = none ∧ State.reset.terminated = false ∧ State.reset.activeCores = []) ∧
      (stateAfter dependent 1).refusedConfig = none ∧ (stateAfter dependent 1).coreActive 0 = true ∧
      ∃ t, step (stateAfter dependent 1) = .next t := ⟨by decide, by decide, by decide, _, rfl⟩
/-- RunConstantsNeverChange and ResetLineReconstructs (and, its state meeting the invariant, EveryRunGoesOn). -/
theorem witness_runs : ∃ t, Host.Core.run Sys2Proof.core 4 (State.construct dependent) = .next t := ⟨_, rfl⟩
theorem witness_TerminationIsFinal :
    (stateAfter Params.standard 1).refusedConfig = none ∧ (stateAfter Params.standard 1).terminated = true := by decide

/-- Two cores; core 1 is inactive: its pc lies beyond the program. -/
def oneInactive : State :=
  { State.construct { dependent with numCores := 2 } with
    cores := [CoreState.construct 0, { CoreState.construct 1 with pc := 12 }] }

theorem witness_InactiveCoreStaysAsItIs :
    oneInactive.Inv ∧ oneInactive.coreActive 1 = false ∧ oneInactive.coreActive 0 = true ∧
      ∃ t, Host.Core.run Sys2Proof.core 3 oneInactive = .next t := ⟨by decide, by decide, by decide, _, rfl⟩
/-- The same core 0, once alone and once beside another. -/
theorem witness_CoresAreIndependent :
    (State.construct dependent).Inv ∧ oneInactive.Inv ∧ (State.construct dependent).cores[0]? = oneInactive.cores[0]? ∧
      (State.construct dependent).prog = oneInactive.prog ∧ (State.construct dependent).lat = oneInactive.lat ∧
      (State.construct dependent).fwd = oneInactive.fwd ∧
      (∃ t, Host.Core.run Sys2Proof.core 3 (State.construct dependent) = .next t) ∧
      ∃ t, Host.Core.run Sys2Proof.core 3 oneInactive = .next t :=
  ⟨by decide, by decide, by decide, by decide, by decide, by decide, ⟨_, rfl⟩, _, rfl⟩
theorem witness_ForwardingOnlyRemovesStalls :
    (stateAfter dependent 2).fwd = false ∧ (∀ c, (stateAfter dependent 2).stallsAt c = false) ∧
      ∃ t, step (stateAfter dependent 2) = .next t := by
  refine ⟨by decide, fun c => ?_, _, rfl⟩
  cases c <;> rfl
theorem witness_LatencyOccupiesExecuteExactly :
    (stateAfter slow 3).Inv ∧ (stateAfter slow 3).terminated = false ∧
      (stateAfter slow 3).cores[0]? = some (core0 (stateAfter slow 3)) ∧
      (core0 (stateAfter slow 3)).slots.e = some { instr := fetched 0 "ADD x1 x2 x3", lr := 3 } := by decide

/-- A backward jump with two instructions behind it. -/
def jumping : Params := running ["JAL x1 -4", "NOP", "NOP"]

theorem witness_JumpTargetFetchedInSameCycle :
    (stateAfter jumping 3).Inv ∧ (stateAfter jumping 3).terminated = false ∧
      (stateAfter jumping 3).cores[0]? = some (core0 (stateAfter jumping 3)) ∧
      (core0 (stateAfter jumping 3)).slots.e = some { instr := .jal 0 0 (some 1) none none (-4), lr := 1 } ∧
      (stateAfter jumping 3).stallsAt 0 = false ∧
      entryAt (stateAfter jumping 3).prog ((core0 (stateAfter jumping 3)).pc + -4) = some (line "NOP") := by decide
/-- A taken branch would go to entry 3; x3 is 0 on core 0, so this one is not taken and goes to entry 4. -/
def branching : Params := running ["BNE x2 x3 0", "NOP", "NOP", "NOP", "NOP"]

theorem witness_JumpTarget_branch :
    (stateAfter branching 3).Inv ∧ (stateAfter branching 3).terminated = false ∧
      (stateAfter branching 3).cores[0]? = some (core0 (stateAfter branching 3)) ∧
      (core0 (stateAfter branching 3)).slots.e =
        some { instr := .bne 0 0 (some 2) (some 3) none 0, lr := 1 } ∧
      (stateAfter branching 3).stallsAt 0 = false ∧
      entryAt (stateAfter branching 3).prog ((core0 (stateAfter branching 3)).pc + 4) = some (line "NOP") ∧
      entryAt (stateAfter branching 3).prog ((core0 (stateAfter branching 3)).pc + 0) = some (line "NOP") ∧
      ∃ u ku, exec (.bne 0 0 (some 2) (some 3) none 0) (stateAfter branching 3) = .next u ∧ u.cores[0]? = some ku ∧
        entryAt (stateAfter branching 3).prog ku.pc = some (line "NOP") :=
  ⟨by decide, by decide, by decide, by decide, by decide, by decide, by decide, _, _, rfl, rfl, by decide⟩

/-- An independent instruction behind a latency of 3, with one more in fetch: a hold without a stall. -/
def holding : Params := { running ["ADD x1 x2 x3", "NOP", "NOP"] with lat := { LatTable.default with add := 3 } }

/-- A dependent instruction of latency 3 that leaves decode empty behind it while the fetch slot stalls. -/
def stallThenHold : Params :=
  { running ["ADD x1 x2 x3", "SUB x4 x1 x5", "NOP", "NOP", "NOP"] with lat := { LatTable.default with sub := 3 } }

/-- The fetch step: a stall; a hold without a stall; a free move; an empty fetch slot. -/
theorem witness_FetchStepStallsOrMoves :
    ((stateAfter dependent 3).stallsAt 0 = true ∧ (core0 (stateAfter dependent 3)).slots.e.isSome = true) ∧
      ((stateAfter holding 3).Inv ∧ (stateAfter holding 3).stallsAt 0 = false ∧
        (core0 (stateAfter holding 3)).slots.f = some (fetched 8 "NOP") ∧
        (core0 (stateAfter holding 3)).slots.d = some (fetched 4 "NOP") ∧
        (core0 (stateAfter holding 3)).slots.e = some { instr := fetched 0 "ADD x1 x2 x3", lr := 3 }) ∧
      ((stateAfter dependent 2).stallsAt 0 = false ∧ (core0 (stateAfter dependent 2)).slots.e = none ∧
        (core0 (stateAfter dependent 2)).slots.f = some (fetched 4 "ADD x4 x1 x5")) ∧
      ((stateAfter dependent 8).Inv ∧ (core0 (stateAfter dependent 8)).slots.f = none ∧
        (stateAfter dependent 8).terminated = false) ∧
      ∃ t k', step (stateAfter holding 3) = .next t ∧ t.cores[0]? = some k' :=
  ⟨by decide, by decide, by decide, by decide, _, _, rfl, rfl⟩
/-- Decode empty, fetch occupied and an entry at the pc; fetch empty and nothing at the pc (V-L5). -/
theorem witness_StructuralHoldWithEmptySlot :
    ((stateAfter stallThenHold 4).Inv ∧ (stateAfter stallThenHold 4).terminated = false ∧
        (core0 (stateAfter stallThenHold 4)).slots.d = none ∧
        (core0 (stateAfter stallThenHold 4)).slots.f = some (fetched 8 "NOP") ∧
        (core0 (stateAfter stallThenHold 4)).slots.e = some { instr := fetched 4 "SUB x4 x1 x5", lr := 3 } ∧
        entryAt stallThenHold.prog (core0 (stateAfter stallThenHold 4)).pc = some (line "NOP")) ∧
      ((core0 (stateAfter slow 4)).slots.e = some { instr := fetched 0 "ADD x1 x2 x3", lr := 2 } ∧
        (core0 (stateAfter { slow with prog := slow.prog.take 2 } 3)).slots.f = none ∧
        (core0 (stateAfter { slow with prog := slow.prog.take 2 } 3)).slots.e =
          some { instr := fetched 0 "ADD x1 x2 x3", lr := 3 } ∧
        entryAt (slow.prog.take 2) (core0 (stateAfter { slow with prog := slow.prog.take 2 } 3)).pc = none) ∧
      ∃ t k', step (stateAfter stallThenHold 4) = .next t ∧ t.cores[0]? = some k' :=
  ⟨by decide, by decide, _, _, rfl, rfl⟩
/-- The first instruction of `holding`, from the end of the cycle that fetched it. -/
theorem witness_PathThroughThePipeline :
    (stateAfter holding 1).Inv ∧ (stateAfter holding 1).terminated = false ∧
      (core0 (stateAfter holding 1)).slots.f = some (fetched 0 "ADD x1 x2 x3") ∧ (stateAfter holding 1).stallsAt 0 = false ∧
      (core0 (stateAfter holding 1)).slots.e = none ∧ step (stateAfter holding 1) = .next (stateAfter holding 2) ∧
      (stateAfter holding 2).cores[0]? = some (core0 (stateAfter holding 2)) ∧
      (core0 (stateAfter holding 2)).slots.e = none :=
  ⟨by decide, by decide, by decide, by decide, by decide, rfl, by decide, by decide⟩
/-- A lone JAL that leaves the program, and a lone SUB. -/
theorem witness_LoneInstructionRun :
    ((running ["JAL x1 10"]).WellFormed ∧ (running ["JAL x1 10"]).numCores = 1 ∧
        (running ["JAL x1 10"]).prog = [line "JAL x1 10"] ∧
        entryAt [line "JAL x1 10"] (4 + (line "JAL x1 10").imm) = none) ∧
      (running ["SUB x1 x2 x3"]).WellFormed ∧ (line "SUB x1 x2 x3").opcode ≠ .jal := by decide
/-- Lines one of which is empty and one of white space only, a refused line, and textual templates. -/
theorem witness_ProgramTextEntries :
    (∀ l ∈ ["NOP".toList, [], " ".toList, "ADD x1".toList], '\n' ∉ l) ∧
      transcribe "NOP\n\n \nADD x1".toList = .ok [line "NOP", line "NOP", line "ADD x1"] ∧
      transcribe "NOP\nA,".toList = .error .comma ∧ ∀ t ∈ [line "NOP", line "JAL x1 10"], t.Textual :=
  ⟨by decide, by rfl, by rfl, by decide⟩
theorem witness_WhiteSpaceLineIsUnknown :
    [' ', '\t'] ≠ [] ∧ ∀ c ∈ [' ', '\t'], isSpace c = true := by simp [isSpace]
/-- The port with an entry (4 at the jump's target) and without one; the runs are those of `witness_runs`. -/
theorem witness_BlockOutputs :
    (stateAfter branching 3).progRdIdx 0 = some 4 ∧ (stateAfter dependent 3).progRdIdx 0 = none ∧
      (stateAfter branching 3).terminated = false ∧ (stateAfter dependent 3).Inv ∧
      ∃ t k', step (stateAfter branching 3) = .next t ∧ t.cores[0]? = some k' :=
  ⟨by decide, by decide, by decide, by decide, _, _, rfl, rfl⟩
theorem witness_FirstCycle_and_EmptyProgram :
    (dependent.WellFormed ∧ dependent.prog = line "ADD x1 x2 x3" :: [line "ADD x4 x1 x5", line "NOP"]) ∧
      ({ Params.standard with numCores := 3 } : Params).WellFormed ∧ Params.standard.prog = [] := by decide
theorem witness_RefusedConfigurations :
    ({ State.reset with cores := [] } : State).cores = [] ∧
      ({ State.reset with lat := { LatTable.default with bne := 0 } } : State).cores ≠ [] ∧
      ¬ ({ State.reset with lat := { LatTable.default with bne := 0 } } : State).lat.WellFormed := by decide
theorem witness_ConfigurationOnlyBeforeRun :
    ((State.construct dependent).cycles = 0 ∧ (State.construct dependent).terminated = false) ∧
      (∃ t, step (State.construct dependent) = .next t) ∧ (∃ t, step State.reset = .next t) ∧
      transcribe ['N', '\n', 'A'] = .ok [line "NOP", line "NOP"] ∧ transcribe [','] = .error .comma :=
  ⟨by decide, ⟨_, rfl⟩, ⟨_, rfl⟩, by rfl, by rfl⟩
/-- Seven integers over three cores: the ranges [0,2), [2,4), [4,7). -/
theorem witness_OwnedRangesTileMemory :
    let m := Memory.ofArray [5, 0, 7, 0, 0, 1, 2]
    6 < m.size ∧ m.ownedRange 3 0 = (0, 2) ∧ m.ownedRange 3 1 = (2, 4) ∧ m.ownedRange 3 2 = (4, 7) := by decide

end Sys2Proof.Tests
end

