-- ==== Sys2Proof/Proofs/Construction.lean ====
section
/-! Construction (10_state.md R24): what a register of a constructed core reads, and which core stands at an index. -/

namespace Sys2Proof.Machine

/-! ## The constructed core -/

/-- `x3` holds the core's id as a word, which for ids of 2^32 and above is the id modulo 2^32 (log 13). -/
@[simp] theorem CoreState.readReg_three_construct (c : Nat) : (construct c).readReg 3 = BitVec.ofNat 32 c := by
  simp [readReg, construct]

theorem CoreState.readReg_construct_of_ne_three (c : Nat) {r : RegIx} (h : r ≠ 3) : (construct c).readReg r = 0 := by
  have hval : 3 ≠ r.val := fun e => h (Fin.ext e.symm)
  simp [readReg, construct, hval]

/-! ## The cores of the constructed block -/

theorem State.getElem?_cores_construct (p : Params) {c : Nat} (h : c < p.numCores) :
    (construct p).cores[c]? = some (CoreState.construct c) := by
  simp [construct, h]

/-! ## The obligation -/

/-- Settles O1: the core at index `c` is `CoreState.construct c`, and a word below 2^31 reads as itself when signed. -/
theorem constructedRegisters : Obligations.ConstructedRegisters := by
  intro p c hc
  refine ⟨.construct c, State.getElem?_cores_construct p hc, fun hword => ?_, fun r hr => ?_⟩
  · rw [CoreState.readReg_three_construct, BitVec.toInt_ofNat']
    exact Int.bmod_eq_of_le (by omega) (by omega)
  · exact CoreState.readReg_construct_of_ne_three c hr

end Sys2Proof.Machine
end

