-- ==== Sys2Proof/Proofs/RunConstants.lean ====
section
/-! The run's parameters (20_memory.md R53): what a run keeps because every step keeps it, and that every step keeps PROG,
LAT, FWD, NUM_CORES and DMEM. -/

namespace Sys2Proof.Machine

/-! ## Runs -/

/-- What every step keeps, every run keeps. -/
theorem run_keeps {P : State → Prop} (hstep : ∀ s t, P s → step s = .next t → P t) {n : Nat} {s t : State} (hs : P s)
    (h : Host.Core.run Sys2Proof.core n s = .next t) : P t := by
  induction n generalizing s with
  | zero => cases h; exact hs
  | succ n ih =>
    rw [run_succ] at h
    obtain ⟨u, hu, ht⟩ := chain_eq_next.1 h
    exact ih (hstep s u hs hu) ht

/-! ## The parameters -/

/-- What is fixed for a run (R43): unlike `SameRun`, it leaves out the cycle counter and the flag of R152, which a whole step
changes. -/
structure SameParams (s t : State) : Prop where
  length : t.cores.length = s.cores.length
  prog : t.prog = s.prog
  lat : t.lat = s.lat
  fwd : t.fwd = s.fwd
  dmem : t.dmem = s.dmem

theorem SameParams.refl (s : State) : SameParams s s := ⟨rfl, rfl, rfl, rfl, rfl⟩

theorem SameParams.trans {s t u : State} (h : SameParams s t) (g : SameParams t u) : SameParams s u :=
  ⟨g.length.trans h.length, g.prog.trans h.prog, g.lat.trans h.lat, g.fwd.trans h.fwd, g.dmem.trans h.dmem⟩

/-- By the three answers of a step: unchanged, terminated, or a cycle over the active cores. -/
theorem step_sameParams {s t : State} (h : step s = .next t) : SameParams s t := by
  rcases (step_next h).2 with ⟨_, rfl⟩ | ⟨_, _, rfl⟩ | ⟨_, _, u, hu, rfl⟩
  · exact .refl t
  · exact ⟨rfl, rfl, rfl, rfl, rfl⟩
  · have same := serviceCores_sameRun hu
    exact ⟨same.length, same.prog, same.lat, same.fwd, same.dmem⟩

theorem run_sameParams {n : Nat} {s t : State} (h : Host.Core.run Sys2Proof.core n s = .next t) : SameParams s t :=
  run_keeps (fun _ _ hs hstep => hs.trans (step_sameParams hstep)) (.refl s) h

/-! ## The obligation -/

/-- Settles O33: a run keeps the parameters, and what a pc fetches and an index of DMEM reads depends on these alone. -/
theorem runConstantsNeverChange : Obligations.RunConstantsNeverChange := by
  intro n s t h
  obtain ⟨hlength, hprog, hlat, hfwd, hdmem⟩ := run_sameParams h
  refine ⟨hprog, fun p => ?_, hlat, hfwd, hlength, fun a => ?_⟩
  · rw [hprog]
  · rw [hdmem]

end Sys2Proof.Machine
end

