-- ==== Sys2Proof/Proofs/Executor.lean ====
section
/-! The Executor (40_instructions.md R100, R101): a call completes on a core of the block with the frame of every call, and
what it does to that core, one equation a form of the instruction. -/

namespace Sys2Proof.Machine

/-! ## The call -/

/-- On a core of the block the call completes within its frame, and the core becomes `execCore i k`. -/
theorem exec_frame {i : Instr} {s : State} {k : CoreState} (hk : s.cores[i.coreId]? = some k) :
    exec i s = .next (s.updateCore i.coreId (execCore i)) ∧
      ExecutorFrame i.coreId s (s.updateCore i.coreId (execCore i)) k (execCore i k) :=
  ⟨exec_of_core hk, by simp [hk], execCore_stalled i k, execCore_slots i k, sameOutside_updateCore s _ _⟩

/-- What holds of `execCore i k` holds of the core after the call. -/
theorem exec_meets {P : CoreState → Prop} (i : Instr) {s : State} {k : CoreState} (hk : s.cores[i.coreId]? = some k)
    (hP : P (execCore i k)) : ∃ t k', exec i s = .next t ∧ ExecutorFrame i.coreId s t k k' ∧ P k' :=
  have ⟨hnext, hframe⟩ := exec_frame hk
  ⟨_, _, hnext, hframe, hP⟩

/-! ## The core after the call -/

section
variable {c : Nat} {o : Word} {rd rs1 rs2 : RegField} {imm : Word} {k : CoreState}

theorem execCore_jal_some {r : RegIx} :
    execCore (.jal c o (some r) rs1 rs2 imm) k = (k.writeReg r (o + 4)).addPc imm := rfl

theorem execCore_jal_none : execCore (.jal c o none rs1 rs2 imm) k = k.advance := rfl

theorem execCore_bne_of_eq {a b : RegIx} (h : k.readReg a = k.readReg b) :
    execCore (.bne c o (some a) (some b) rs2 imm) k = k.advance := by
  simp [execCore, CoreState.differ, h]

theorem execCore_bne_of_ne {a b : RegIx} (h : k.readReg a ≠ k.readReg b) :
    execCore (.bne c o (some a) (some b) rs2 imm) k = k.addPc imm := by
  simp [execCore, CoreState.differ, h]

theorem execCore_bne_absent (h : rd = none ∨ rs1 = none) :
    execCore (.bne c o rd rs1 rs2 imm) k = k.advance := by
  rcases h with rfl | rfl
  · rfl
  · cases rd <;> rfl

theorem execCore_add_pc : (execCore (.add c o rd rs1 rs2 imm) k).pc = k.pc + 4 := by
  cases rd <;> cases rs1 <;> cases rs2 <;> rfl

theorem execCore_sub_pc : (execCore (.sub c o rd rs1 rs2 imm) k).pc = k.pc + 4 := by
  cases rd <;> cases rs1 <;> cases rs2 <;> rfl

theorem execCore_swap_some {a b : RegIx} :
    execCore (.swap c o rd (some a) (some b) imm) k =
      ((k.writeReg a (k.readReg b)).writeReg b (k.readReg a)).advance := rfl

theorem execCore_swap_absent (h : rs1 = none ∨ rs2 = none) :
    execCore (.swap c o rd rs1 rs2 imm) k = k.advance := by
  rcases h with rfl | rfl
  · rfl
  · cases rs1 <;> rfl

theorem execCore_swap_pc : (execCore (.swap c o rd rs1 rs2 imm) k).pc = k.pc + 4 := by
  cases rs1 <;> cases rs2 <;> rfl

theorem execCore_unknown : execCore (.unknown c o rd rs1 rs2 imm) k = k.advance := rfl

end

/-! ## The obligation -/

/-- Settles O11: only a JAL with its `rd` and a BNE whose two registers are there and differ move the pc by `imm`. -/
theorem executorPcCases : Obligations.ExecutorPcCases := by
  intro i s k hk
  have ⟨hnext, hcore, _⟩ := exec_frame hk
  refine ⟨_, _, hnext, hcore, ?_⟩
  cases i with
  | jal c o rd rs1 rs2 imm =>
    cases rd with
    | none => rw [execCore_jal_none, CoreState.advance_pc]
    | some r => rw [execCore_jal_some, CoreState.addPc_pc, CoreState.writeReg_pc]
  | bne c o rd rs1 rs2 imm =>
    cases rd with
    | none => rw [execCore_bne_absent (.inl rfl), CoreState.advance_pc]
    | some a =>
      cases rs1 with
      | none => rw [execCore_bne_absent (.inr rfl), CoreState.advance_pc]
      | some b =>
        by_cases h : k.readReg a = k.readReg b
        · simp [execCore_bne_of_eq, h]
        · simp [execCore_bne_of_ne, h]
  | add => exact execCore_add_pc
  | sub => exact execCore_sub_pc
  | swap => exact execCore_swap_pc
  | unknown => rw [execCore_unknown, CoreState.advance_pc]

end Sys2Proof.Machine
end

