-- ==== Sys2Proof/Proofs/HazardUnit.lean ====
section
/-! The HazardUnit on one producer (41_pipeline_units.md R131 to R133): it looks at the producer's `rd` field alone, whatever
the opcode, and stalls when the decode instruction names that register as a source. -/

namespace Sys2Proof.Machine

theorem Slots.mem_producers {z : Slots} {p : Instr} : p ∈ z.producers ↔ z.holdsProducer p := by
  simp [producers, holdsProducer, eq_comm]

theorem dependsOn_eq_true {d p : Instr} :
    dependsOn d p = true ↔ ∃ a, p.rd = some a ∧ (d.rs1 = some a ∨ d.rs2 = some a) := by
  cases hp : p.rd with
  | none => simp [dependsOn, hp]
  | some a =>
    have hsame (f : RegField) : sameReg f (some a) = true ↔ f = some a := by
      rw [sameReg_eq_true]
      exact and_iff_right_of_imp fun h => by simp [h]
    simp [dependsOn, hp, hsame]

/-- The answer depends on no field of the producer but `rd`. -/
theorem dependsOn_congr (d : Instr) {p q : Instr} (h : p.rd = q.rd) : dependsOn d p = dependsOn d q := by
  simp only [dependsOn, h]

/-- Forwarding being off, one producer whose `rd` field is a source of the decode instruction stalls the core. -/
theorem hazardUnit_of_producer {z : Slots} {d p : Instr} {a : RegIx} (n : Nat) (hd : z.d = some d)
    (hp : z.holdsProducer p) (hrd : p.rd = some a) (hsource : d.rs1 = some a ∨ d.rs2 = some a) :
    hazardUnit z false n = (true, n + 1) := by
  have hdep : dependsOn d p = true := dependsOn_eq_true.2 ⟨a, hrd, hsource⟩
  have hhazard : hazard z false = true := by
    simpa [hazard, hd] using ⟨p, Slots.mem_producers.2 hp, hdep⟩
  simp [hazardUnit, hhazard]

end Sys2Proof.Machine
end

