-- ==== Sys2Proof/Proofs/CanonicalTokens.lean ====
section
/-! The canonical tokens (30_encoding.md R79): decimal digits, `x0` to `x31` and an immediate in decimal parse to what they
spell, and a line of an opcode token and such operands is read by these tokens. -/

namespace Sys2Proof

/-! ## Decimal digits -/

theorem digitOf_digitChar {d : Nat} (h : d < 10) : digitOf 10 (digitChar d) = some d := by
  have all : ∀ d : Fin 10, digitOf 10 (digitChar d.val) = some d.val := by decide
  exact all ⟨d, h⟩

theorem digitsFrom_append (base acc : Nat) (l r : List Char) :
    digitsFrom base acc (l ++ r) = (digitsFrom base acc l).bind fun a => digitsFrom base a r := by
  induction l generalizing acc with
  | nil => rfl
  | cons c cs ih =>
    cases h : digitOf base c with
    | none => simp [digitsFrom, h]
    | some d => simp [digitsFrom, h, ih]

theorem digitsFrom_decimal {fuel n : Nat} (h : n < 10 ^ (fuel + 1)) : digitsFrom 10 0 (decimal fuel n) = some n := by
  induction fuel generalizing n with
  | zero =>
    have hn : n % 10 = n := Nat.mod_eq_of_lt (by simpa using h)
    simp [decimal, digitsFrom, hn, digitOf_digitChar (d := n) (by simpa using h)]
  | succ fuel ih =>
    by_cases hn : n < 10
    · simp [decimal, digitsFrom, hn, digitOf_digitChar hn]
    · have hquot : n / 10 < 10 ^ (fuel + 1) := by rw [pow_succ] at h; omega
      have hdigit : digitOf 10 (digitChar (n % 10)) = some (n % 10) := digitOf_digitChar (Nat.mod_lt n (by decide))
      simp [decimal, hn, digitsFrom_append, ih hquot, digitsFrom, hdigit, Nat.div_add_mod']

theorem decimal_ne_nil (fuel n : Nat) : decimal fuel n ≠ [] := by
  cases fuel with
  | zero => simp [decimal]
  | succ fuel => simp only [decimal]; split <;> simp

theorem digits_decimal {fuel n : Nat} (h : n < 10 ^ (fuel + 1)) : digits 10 (decimal fuel n) = some n := by
  simp [digits, decimal_ne_nil, digitsFrom_decimal h]

/-- What holds of the ten digit characters holds of every character of a decimal spelling. -/
theorem decimal_forall {P : Char → Prop} (hP : ∀ d < 10, P (digitChar d)) (fuel n : Nat) :
    ∀ c ∈ decimal fuel n, P c := by
  have hlast (n : Nat) : P (digitChar (n % 10)) := hP _ (Nat.mod_lt n (by decide))
  induction fuel generalizing n with
  | zero => simpa [decimal] using hlast n
  | succ fuel ih =>
    by_cases hn : n < 10
    · simpa [decimal, hn] using hP n hn
    · intro c hc
      simp only [decimal, hn, if_false, List.mem_append, List.mem_singleton] at hc
      rcases hc with hc | rfl
      · exact ih _ c hc
      · exact hlast n

/-! ## Register and immediate tokens -/

theorem parseReg_regToken (r : RegIx) : parseReg (some (regToken r)) = some r := by
  have hsmall : r.val < 10 ^ (1 + 1) := by omega
  simp [regToken, parseReg, digits_decimal hsmall, regIxOf]

theorem parseReg_none : parseReg none = none := rfl

/-- A character of an immediate's spelling: the sign or a digit. -/
theorem immSpelling_forall {P : Char → Prop} (hsign : P '-') (hdigit : ∀ d < 10, P (digitChar d)) (v : Word) :
    ∀ c ∈ immSpelling v, P c := by
  have hdec := decimal_forall hdigit 9 v.toInt.natAbs
  unfold immSpelling
  split
  · simpa using ⟨hsign, hdec⟩
  · exact hdec

theorem immSpelling_ne_nil (v : Word) : immSpelling v ≠ [] := by
  unfold immSpelling
  split
  · simp
  · exact decimal_ne_nil _ _

/-- An immediate's spelling names no register: no character of it is `x`. -/
theorem parseReg_immSpelling (v : Word) : parseReg (some (immSpelling v)) = none := by
  have hx : ∀ c ∈ immSpelling v, c ≠ 'x' := immSpelling_forall (by decide) (by decide) v
  cases h : immSpelling v with
  | nil => rfl
  | cons c cs => simp [parseReg, hx c (by simp [h])]

/-- Without the letter of `0x` or `0b`, a token is read as signed decimal. -/
theorem parseNumber_eq_parseSigned {t : List Char} (h : ∀ c ∈ t, c ≠ 'x' ∧ c ≠ 'X' ∧ c ≠ 'b' ∧ c ≠ 'B') :
    parseNumber t = parseSigned t := by
  match t with
  | [] => rfl
  | [_] => rfl
  | a :: b :: cs =>
    obtain ⟨hx, hX, hb, hB⟩ := h b (by simp)
    simp [parseNumber, hx, hX, hb, hB]

theorem parseSigned_decimal {fuel n : Nat} (h : n < 10 ^ (fuel + 1)) : parseSigned (decimal fuel n) = some (n : Int) := by
  have hsign : ∀ c ∈ decimal fuel n, c ≠ '-' ∧ c ≠ '+' := decimal_forall (by decide) fuel n
  have hdigits := digits_decimal h
  cases hd : decimal fuel n with
  | nil => exact absurd hd (decimal_ne_nil fuel n)
  | cons c cs =>
    obtain ⟨hminus, hplus⟩ := hsign c (by simp [hd])
    rw [hd] at hdigits
    simp [parseSigned, hminus, hplus, hdigits]

theorem parseSigned_immSpelling (v : Word) : parseSigned (immSpelling v) = some v.toInt := by
  have hlow := BitVec.le_toInt v
  have hhigh := BitVec.toInt_lt (x := v)
  have hsmall : v.toInt.natAbs < 10 ^ (9 + 1) := by omega
  by_cases hneg : v.toInt < 0
  · simp [immSpelling, hneg, parseSigned, digits_decimal hsmall, abs_of_neg hneg]
  · rw [immSpelling, if_neg hneg, parseSigned_decimal hsmall, Int.natAbs_of_nonneg (Int.not_lt.1 hneg)]

/-- A word's canonical spelling parses to the word (R75, R79). -/
theorem parseImm_immSpelling (v : Word) : parseImm (some (immSpelling v)) = .ok v := by
  have hlow := BitVec.le_toInt v
  have hhigh := BitVec.toInt_lt (x := v)
  have hnumber : parseNumber (immSpelling v) = some v.toInt := by
    rw [parseNumber_eq_parseSigned (immSpelling_forall (by decide) (by decide) v), parseSigned_immSpelling]
  have hrange : -2147483648 ≤ v.toInt ∧ v.toInt ≤ 2147483647 := by omega
  simp [parseImm, hnumber, hrange]

/-! ## A line of tokens -/

/-- A character that neither separates tokens nor belongs to a mark the transcriber refuses (R71). -/
def isPlain (c : Char) : Bool := !isSpace c && c != ',' && c != '#' && c != ';' && c != '/'

/-- A token of plain characters. -/
structure PlainToken (t : List Char) : Prop where
  ne_nil : t ≠ []
  plain : ∀ c ∈ t, isPlain c = true

theorem isSpace_of_isPlain {c : Char} (h : isPlain c = true) : isSpace c = false := by
  cases hspace : isSpace c with
  | false => rfl
  | true => simp [isPlain, hspace] at h

theorem opcodeToken_plain (op : Opcode) : PlainToken (opcodeToken op) := by
  have hplain : (opcodeToken op).all isPlain = true := by cases op <;> rfl
  exact ⟨by cases op <;> exact List.cons_ne_nil _ _, List.all_eq_true.1 hplain⟩

theorem regToken_plain (r : RegIx) : PlainToken (regToken r) := by
  refine ⟨by simp [regToken], ?_⟩
  exact List.forall_mem_cons.2 ⟨by decide, decimal_forall (by decide) 1 r.val⟩

theorem immSpelling_plain (v : Word) : PlainToken (immSpelling v) :=
  ⟨immSpelling_ne_nil v, immSpelling_forall (by decide) (by decide) v⟩

theorem joinTokens_cons_cons (t u : List Char) (ts : List (List Char)) :
    joinTokens (t :: u :: ts) = t ++ ' ' :: joinTokens (u :: ts) := rfl

theorem mem_joinTokens {ts : List (List Char)} {c : Char} (h : c ∈ joinTokens ts) : c = ' ' ∨ ∃ t ∈ ts, c ∈ t := by
  match ts with
  | [] => cases h
  | [t] => exact .inr ⟨t, by simp, h⟩
  | t :: u :: ts =>
    rw [joinTokens_cons_cons, List.mem_append, List.mem_cons] at h
    rcases h with h | rfl | h
    · exact .inr ⟨t, by simp, h⟩
    · exact .inl rfl
    · exact (mem_joinTokens h).imp_right fun ⟨w, hw, hc⟩ => ⟨w, List.mem_cons_of_mem t hw, hc⟩

theorem SpacedTokens.cons_space {ts : List (List Char)} {line : List Char} {c : Char} (hc : isSpace c = true)
    (h : SpacedTokens ts line) : SpacedTokens ts (c :: line) := by
  cases ts with
  | nil => exact List.forall_mem_cons.2 ⟨hc, h⟩
  | cons t ts =>
    obtain ⟨before, after, rfl, hbefore, hrest⟩ := h
    exact ⟨c :: before, after, rfl, List.forall_mem_cons.2 ⟨hc, hbefore⟩, hrest⟩

theorem spacedTokens_joinTokens {ts : List (List Char)} (h : ∀ t ∈ ts, PlainToken t) :
    SpacedTokens ts (joinTokens ts) := by
  match ts with
  | [] => simp [joinTokens, SpacedTokens]
  | [t] =>
    obtain ⟨hne, hplain⟩ := h t (by simp)
    exact ⟨[], [], by simp [joinTokens], by simp, hne, fun c hc => isSpace_of_isPlain (hplain c hc), by simp,
      by simp [SpacedTokens]⟩
  | t :: u :: ts =>
    obtain ⟨hne, hplain⟩ := h t (by simp)
    have hrest : SpacedTokens (u :: ts) (joinTokens (u :: ts)) :=
      spacedTokens_joinTokens fun w hw => h w (List.mem_cons_of_mem t hw)
    exact ⟨[], ' ' :: joinTokens (u :: ts), rfl, by simp, hne, fun c hc => isSpace_of_isPlain (hplain c hc),
      by simp [isSpace], hrest.cons_space rfl⟩

/-- A line of plain tokens holds nothing the transcriber refuses, so it is read by its tokens. -/
theorem transcribeLine_joinTokens {ts : List (List Char)} (h : ∀ t ∈ ts, PlainToken t) :
    transcribeLine (joinTokens ts) = templateOfTokens ts := by
  have habsent {c : Char} (hspace : c ≠ ' ') (hc : isPlain c = false) : c ∉ joinTokens ts := fun hmem => by
    rcases mem_joinTokens hmem with rfl | ⟨t, ht, hct⟩
    · exact hspace rfl
    · simp [(h t ht).plain c hct] at hc
  refine transcribeLine_of_spaced (habsent (by decide) (by decide)) ?_ (spacedTokens_joinTokens h)
  rintro (hhash | hsemi | hslashes)
  · exact habsent (by decide) (by decide) hhash
  · exact habsent (by decide) (by decide) hsemi
  · exact habsent (c := '/') (by decide) (by decide) (hslashes.subset (by simp))

/-- An opcode's token selects the opcode, and is no other opcode's in other letter case. -/
theorem templateOfTokens_opcodeToken (op : Opcode) {operands : List (List Char)} (h : operands.length ≤ 3) :
    templateOfTokens (opcodeToken op :: operands) = templateOf op operands := by
  have hop : opcodeOf (opcodeToken op) = op := by cases op <;> decide
  have hcase : caseVariantOf (opcodeToken op) = none := by cases op <;> decide
  simp [templateOfTokens, hop, hcase, Nat.not_lt.2 h]

/-- The template of a line of an opcode token and plain operands. -/
theorem transcribeLine_opcodeToken (op : Opcode) {operands : List (List Char)} (hlength : operands.length ≤ 3)
    (hplain : ∀ t ∈ operands, PlainToken t) :
    transcribeLine (joinTokens (opcodeToken op :: operands)) = templateOf op operands := by
  rw [transcribeLine_joinTokens (List.forall_mem_cons.2 ⟨opcodeToken_plain op, hplain⟩),
    templateOfTokens_opcodeToken op hlength]

/-- A line of three registers, for an opcode without an immediate. -/
theorem transcribeLine_three_registers {op : Opcode} (himm : ∀ operands, immToken op operands = none) (d a b : RegIx) :
    transcribeLine (joinTokens [opcodeToken op, regToken d, regToken a, regToken b]) =
      .ok { opcode := op, rd := some d, rs1 := some a, rs2 := some b, imm := 0 } := by
  rw [transcribeLine_opcodeToken op (by simp) (by simp [regToken_plain])]
  simp [templateOf, himm, parseImm, parseReg_regToken]

end Sys2Proof
end

