-- ==== Sys2Proof/Proofs/Instructions.lean ====
section
/-! JAL, BNE and SWAP (40_instructions.md R103, R104, R107): each statement assembled from the Executor's equations, the
HazardUnit's rule for one producer and the line of the canonical tokens. -/

namespace Sys2Proof.Machine

/-! ## JAL -/

theorem transcribeLine_jal (r : RegIx) (v : Word) :
    transcribeLine (joinTokens [['J', 'A', 'L'], regToken r, immSpelling v]) =
      .ok { opcode := .jal, rd := some r, rs1 := none, rs2 := none, imm := v } := by
  rw [show ['J', 'A', 'L'] = opcodeToken .jal from rfl,
    transcribeLine_opcodeToken .jal (by simp) (by simp [regToken_plain, immSpelling_plain])]
  simp [templateOf, immToken, parseImm_immSpelling, parseReg_regToken, parseReg_immSpelling, parseReg_none]

/-- Settles O5: a link to `rd` and a move of the pc by `imm`, or the default increment alone. -/
theorem jalLinksAndJumps : Obligations.JalLinksAndJumps := by
  refine ⟨fun c o r rs1 rs2 imm s k hk => ?linked, fun c o rs1 rs2 imm s k hk => ?absent, transcribeLine_jal⟩
  case linked =>
    refine exec_meets (.jal c o (some r) rs1 rs2 imm) hk ?_
    rw [execCore_jal_some]
    refine ⟨?_, fun q hq => ?_, ?_⟩
    · rw [CoreState.addPc_readReg, CoreState.readReg_writeReg_self]
    · rw [CoreState.addPc_readReg, CoreState.readReg_writeReg_of_ne _ _ hq]
    · rw [CoreState.addPc_pc, CoreState.writeReg_pc]
  case absent =>
    refine exec_meets (.jal c o none rs1 rs2 imm) hk ?_
    rw [execCore_jal_none]
    exact ⟨k.advance_readReg, k.advance_pc⟩

/-! ## BNE -/

theorem transcribeLine_bne (a b : RegIx) (v : Word) :
    transcribeLine (joinTokens [['B', 'N', 'E'], regToken a, regToken b, immSpelling v]) =
      .ok { opcode := .bne, rd := some a, rs1 := some b, rs2 := none, imm := v } := by
  rw [show ['B', 'N', 'E'] = opcodeToken .bne from rfl,
    transcribeLine_opcodeToken .bne (by simp) (by simp [regToken_plain, immSpelling_plain])]
  simp [templateOf, immToken, parseImm_immSpelling, parseReg_regToken, parseReg_immSpelling]

/-- Settles O6: the comparison selects between the move by `imm` and the default increment; neither writes a register. -/
theorem bneBranchesWhenRegistersDiffer : Obligations.BneBranchesWhenRegistersDiffer := by
  refine ⟨fun c o a b rs2 imm s k hk => ?compared, fun c o rd rs1 rs2 imm s k hk habsent => ?absent,
    fun z d n c o a rs1 rs2 imm hd hp hsource => hazardUnit_of_producer n hd hp rfl hsource, transcribeLine_bne⟩
  case compared =>
    refine exec_meets (.bne c o (some a) (some b) rs2 imm) hk ?_
    by_cases h : k.readReg a = k.readReg b
    · rw [execCore_bne_of_eq h]
      exact ⟨k.advance_readReg, fun hne => absurd h hne, fun _ => k.advance_pc⟩
    · rw [execCore_bne_of_ne h]
      exact ⟨k.addPc_readReg imm, fun _ => k.addPc_pc imm, fun heq => absurd heq h⟩
  case absent =>
    refine exec_meets (.bne c o rd rs1 rs2 imm) hk ?_
    rw [execCore_bne_absent habsent]
    exact ⟨k.advance_readReg, k.advance_pc⟩

/-! ## SWAP -/

/-- Two writes that exchange two registers, which may be one: both hold the other's value. -/
theorem CoreState.readReg_exchange (k : CoreState) (a b q : RegIx) :
    ((k.writeReg a (k.readReg b)).writeReg b (k.readReg a)).readReg q = k.readReg (Equiv.swap a b q) := by
  rw [readReg_writeReg, readReg_writeReg, Equiv.swap_apply_def]
  split_ifs <;> simp_all

/-- Settles O9: two registers exchanged, or none; the HazardUnit reads the `rd` field alone. -/
theorem swapExchangesRegisters : Obligations.SwapExchangesRegisters := by
  refine ⟨fun c o rd a b imm s k hk => ?exchanged, fun c o rd rs1 rs2 imm s k hk habsent => ?absent,
    fun z d n c o a rs1 rs2 imm hd hp hsource => hazardUnit_of_producer n hd hp rfl hsource,
    fun d c o rd rs1 rs2 imm => dependsOn_congr d rfl,
    transcribeLine_three_registers (op := .swap) fun _ => rfl⟩
  case exchanged =>
    refine exec_meets (.swap c o rd (some a) (some b) imm) hk ?_
    rw [execCore_swap_some]
    simp only [CoreState.advance_readReg, CoreState.readReg_exchange]
    refine ⟨by simp, by simp, fun q ha hb => ?_, rfl⟩
    rw [Equiv.swap_apply_of_ne_of_ne ha hb]
  case absent =>
    refine exec_meets (.swap c o rd rs1 rs2 imm) hk ?_
    rw [execCore_swap_absent habsent]
    exact ⟨k.advance_readReg, k.advance_pc⟩

end Sys2Proof.Machine
end

