-- ==== Sys2Proof/Proofs/Forwarding.lean ====
section
/-! Forwarding switched on (41_pipeline_units.md R134): the HazardUnit finds no hazard, so no core stalls on one and the
counter of hazard stalls stands. -/

namespace Sys2Proof.Machine

@[simp] theorem hazard_true (z : Slots) : hazard z true = false := by
  simp [hazard]

theorem State.stallsAt_of_fwd {s : State} (hfwd : s.fwd = true) (c : Nat) : s.stallsAt c = false := by
  unfold State.stallsAt
  cases s.cores[c]? with
  | none => rfl
  | some k => simp [hfwd]

theorem step_stalls_of_fwd {s t : State} (hfwd : s.fwd = true) (h : step s = .next t) : t.stalls = s.stalls := by
  rcases (step_next h).2 with ⟨_, rfl⟩ | ⟨_, _, rfl⟩ | ⟨_, _, u, hu, rfl⟩
  case inl => rfl
  case inr.inl => rfl
  case inr.inr =>
    have hcount : u.stalls = s.stalls + (s.activeCores.filter s.stallsAt).length :=
      serviceCores_stalls (activeCores_nodup s) hu
    have hnone : s.activeCores.filter s.stallsAt = [] :=
      List.filter_eq_nil_iff.2 fun c _ => by simp [State.stallsAt_of_fwd hfwd c]
    simpa [hnone] using hcount

/-- Settles O25: no slots hold a hazard under forwarding, and a cycle counts one for each active core that stalls on one. -/
theorem forwardingSwitchesHazardOff : Obligations.ForwardingSwitchesHazardOff := by
  refine ⟨fun z n => ?unit, fun s t => step_stalls_of_fwd⟩
  simp [hazardUnit]

end Sys2Proof.Machine
end

