-- ==== Sys2Proof/Proofs/CoreCycle.lean ====
section
/-! One core's cycle (42_scheduler.md R156 to R164): each field of the core's next state, what is in flight in it, and
what a newly fetched record is. The later files speak of `coreNext` through these lemmas. -/

namespace Sys2Proof.Machine

/-! ## The program -/

theorem fetchIndex_lt {p : Word} {n j : Nat} (h : fetchIndex p n = some j) : j < n := by
  unfold fetchIndex at h
  split at h
  · cases h; omega
  · cases h

/-- A pc fetches an entry exactly when it indexes one. -/
theorem entryAt_eq_none {prog : List Template} {p : Word} : entryAt prog p = none ↔ fetchIndex p prog.length = none := by
  unfold entryAt
  cases h : fetchIndex p prog.length with
  | none => simp
  | some j => simp [fetchIndex_lt h]

/-! ## The structural hold -/

theorem Slots.exBusy_eq_true {z : Slots} : z.exBusy = true ↔ z.executeCounts := by
  cases he : z.e <;> simp [exBusy, executeCounts, he]

theorem Slots.exBusy_eq_false {z : Slots} : z.exBusy = false ↔ ∀ e ∈ z.e, e.lr ≤ 1 := by
  cases he : z.e <;> simp [exBusy, he]

theorem Slots.dHeld_of_busy {z : Slots} (h : z.exBusy = true) : z.dHeld = z.d := by simp [dHeld, h]

theorem Slots.dHeld_of_free {z : Slots} (h : z.exBusy = false) : z.dHeld = none := by simp [dHeld, h]

theorem Slots.eNext_of_busy {z : Slots} {e : ExecSlot} (lat : LatTable) (he : z.e = some e) (hl : 1 < e.lr) :
    z.eNext lat = some { instr := e.instr, lr := e.lr - 1 } := by
  simp [eNext, exBusy, he, hl]

theorem Slots.eNext_of_free {z : Slots} (lat : LatTable) (h : z.exBusy = false) :
    z.eNext lat = z.d.map fun d => { instr := d, lr := latencyOf lat d.opcode } := by
  simp [eNext, h]

/-- An empty decode slot meets no hazard (D12). -/
theorem hazard_of_empty_decode {z : Slots} (fwd : Bool) (h : z.d = none) : hazard z fwd = false := by
  simp [hazard, h]

/-! ## The fetch step -/

theorem Slots.fHeld_of_empty {z : Slots} (fwd : Bool) (h : z.f = none) : z.fHeld fwd = none := by
  unfold fHeld
  split
  · exact h
  · rfl

theorem Slots.dNext_of_kept {z : Slots} {fwd : Bool} (h : z.fKept fwd = true) : z.dNext fwd = z.dHeld := by
  simp [dNext, h]

theorem Slots.dNext_of_moved {z : Slots} {fwd : Bool} (h : z.fKept fwd = false) : z.dNext fwd = z.f := by
  simp [dNext, h]

/-- An empty fetch slot leaves decode what it holds, whatever the HazardUnit answers. -/
theorem Slots.dNext_of_empty {z : Slots} (fwd : Bool) (h : z.f = none) : z.dNext fwd = z.dHeld := by
  cases hkept : z.fKept fwd with
  | true => exact dNext_of_kept hkept
  | false =>
    rw [fKept, Bool.or_eq_false_iff, Option.isSome_eq_false_iff, Option.isNone_iff_eq_none] at hkept
    rw [dNext, hkept.2, h, ite_self]

/-! ## The next state, field by field -/

section
variable {c : Nat} {prog : List Template} {lat : LatTable} {fwd : Bool} {k : CoreState}

@[simp] theorem coreNext_x : (coreNext c prog lat fwd k).x = (executedCore k).x := rfl
@[simp] theorem coreNext_pc : (coreNext c prog lat fwd k).pc =
    if (newRecord c prog fwd k.slots (executedCore k)).isSome then (executedCore k).pc + 4 else (executedCore k).pc := rfl
@[simp] theorem coreNext_stalled : (coreNext c prog lat fwd k).stalled = k.slots.stalledNext fwd k.stalled := by
  simp [coreNext, finishCore]
@[simp] theorem coreNext_f : (coreNext c prog lat fwd k).slots.f =
    (k.slots.fHeld fwd).or (newRecord c prog fwd k.slots (executedCore k)) := rfl
@[simp] theorem coreNext_d : (coreNext c prog lat fwd k).slots.d = k.slots.dNext fwd := rfl
@[simp] theorem coreNext_e : (coreNext c prog lat fwd k).slots.e = k.slots.eNext lat := rfl
@[simp] theorem coreNext_m : (coreNext c prog lat fwd k).slots.m = k.slots.mNext := rfl

/-- A core whose execute slot is empty or counting keeps its registers and its pc through the execute step. -/
theorem executedCore_of_no_call (h : k.slots.e = none ∨ k.slots.exBusy = true) : executedCore k = k := by
  unfold executedCore
  split
  · rename_i e he
    have hbusy : k.slots.exBusy = true := h.resolve_left (by simp [he])
    simp [hbusy]
  · rfl

/-- A core whose counter has run out has its record executed. -/
theorem executedCore_of_call {e : ExecSlot} (he : k.slots.e = some e) (hl : e.lr ≤ 1) :
    executedCore k = execCore e.instr k := by
  have hfree : k.slots.exBusy = false := Slots.exBusy_eq_false.2 (by simp [he, hl])
  simp [executedCore, he, hfree]

end

/-! ## New fetch -/

section
variable {c : Nat} {prog : List Template} {fwd : Bool} {z : Slots} {k : CoreState}

/-- A new record is the entry at the pc, of this core, at that pc. -/
theorem newRecord_eq_some {i : Instr} (h : newRecord c prog fwd z k = some i) :
    i.coreId = c ∧ i.originPc = k.pc ∧ entryAt prog k.pc = some i.template := by
  unfold newRecord at h
  split at h
  · cases h
  · obtain ⟨tm, htm, rfl⟩ := Option.map_eq_some_iff.1 h
    simp [htm]

/-- A new record needs the fetch slot empty. -/
theorem newRecord_of_held (h : (z.fHeld fwd).isSome = true) : newRecord c prog fwd z k = none := by
  simp [newRecord, h]

theorem newRecord_of_stalled (h : z.stalledNext fwd k.stalled = true) : newRecord c prog fwd z k = none := by
  simp [newRecord, h]

theorem newRecord_of_no_entry (h : entryAt prog k.pc = none) : newRecord c prog fwd z k = none := by
  simp [newRecord, h]

/-- With the core not stalled and the slot empty, the entry at the pc is fetched. -/
theorem newRecord_of_free (hs : z.stalledNext fwd k.stalled = false) (hf : z.fHeld fwd = none) :
    newRecord c prog fwd z k = (entryAt prog k.pc).map (fetchRecord c k.pc) := by
  simp [newRecord, hs, hf]

end

/-! ## What is in flight -/

theorem Slots.inFlight_eq (z : Slots) :
    z.inFlight = z.f.toList ++ (z.d.toList ++ (z.inExecute.toList ++ (z.m.toList ++ z.w.toList))) := by
  have cons_toList (o : Option Instr) (os : List (Option Instr)) :
      (o :: os).filterMap id = o.toList ++ os.filterMap id := by cases o <;> rfl
  simp only [inFlight, cons_toList, List.filterMap_nil, List.append_nil]

/-- The fetch step and new fetch keep the fetch slot's record and what decode holds, behind the new record. -/
theorem fetch_keeps_records (c : Nat) (prog : List Template) (fwd : Bool) (z : Slots) (k : CoreState) :
    ((z.fHeld fwd).or (newRecord c prog fwd z k)).toList ++ (z.dNext fwd).toList =
      (newRecord c prog fwd z k).toList ++ (z.f.toList ++ z.dHeld.toList) := by
  cases hkept : z.fKept fwd with
  | false =>
    have hd : z.dHeld = none := by
      rw [Slots.fKept, Bool.or_eq_false_iff] at hkept
      simpa using hkept.2
    simp [Slots.fHeld, Slots.dNext, hkept, hd]
  | true =>
    cases hf : z.f with
    | none => simp [Slots.fHeld, Slots.dNext, hkept, hf]
    | some f =>
      have hn : newRecord c prog fwd z k = none := newRecord_of_held (by simp [Slots.fHeld, hkept, hf])
      simp [Slots.fHeld, Slots.dNext, hkept, hf, hn]

/-- The execute and decode steps keep the records of decode and execute. -/
theorem decode_keeps_records (z : Slots) (lat : LatTable) :
    z.dHeld.toList ++ (((z.eNext lat).map ExecSlot.instr).toList ++ z.mNext.toList) =
      z.d.toList ++ z.inExecute.toList := by
  cases hb : z.exBusy with
  | true =>
    obtain ⟨e, he, hl⟩ := Slots.exBusy_eq_true.1 hb
    simp [Slots.dHeld, Slots.mNext, hb, Slots.eNext_of_busy lat he hl, Slots.inExecute, he]
  | false => cases hd : z.d <;> simp [Slots.dHeld, Slots.mNext, hb, Slots.eNext_of_free lat hb, hd]

/-- R164: the slots of the next cycle hold what the slots held, less what left writeback, behind the new record. -/
theorem finishCore_inFlight (c : Nat) (prog : List Template) (lat : LatTable) (fwd : Bool) (z : Slots) (k : CoreState) :
    (finishCore c prog lat fwd z k).slots.inFlight =
      (newRecord c prog fwd z k).toList ++ { z with w := none }.inFlight := by
  have hfetch := fetch_keeps_records c prog fwd z k
  have hdecode := decode_keeps_records z lat
  rw [Slots.inFlight_eq, Slots.inFlight_eq]
  show ((z.fHeld fwd).or (newRecord c prog fwd z k)).toList ++ ((z.dNext fwd).toList ++
      (((z.eNext lat).map ExecSlot.instr).toList ++ (z.mNext.toList ++ z.m.toList))) =
    (newRecord c prog fwd z k).toList ++ (z.f.toList ++ (z.d.toList ++ (z.inExecute.toList ++ (z.m.toList ++ []))))
  rw [← List.append_assoc, hfetch, List.append_nil, ← List.append_assoc z.d.toList, ← hdecode]
  simp only [List.append_assoc]

end Sys2Proof.Machine
end

