-- ==== Sys2Proof/Proofs/Invariant.lean ====
section
/-! The invariant of the block (10_state.md R31, R32, R36; 42_scheduler.md R152, R166): construction meets it, every
step keeps it, and from a state that meets it every run goes on and takes each core, active or not, to the iterate of
its next state. -/

namespace Sys2Proof.Machine

/-! ## The parameters -/

theorem one_le_latencyOf {lat : LatTable} (h : lat.WellFormed) (op : Opcode) : 1 ≤ latencyOf lat op := by
  obtain ⟨hjal, hbne, hadd, hsub, hswap⟩ := h
  cases op with
  | jal => exact hjal
  | bne => exact hbne
  | add => exact hadd
  | sub => exact hsub
  | swap => exact hswap
  | unknown => exact le_rfl

theorem State.refusedConfig_eq_none {s : State} : s.refusedConfig = none ↔ s.cores ≠ [] ∧ s.lat.WellFormed := by
  by_cases hcores : s.cores = []
  · simp [refusedConfig, hcores]
  · by_cases hlat : s.lat.WellFormed
    · rw [refusedConfig, if_neg (by simpa using hcores), if_pos hlat]
      exact iff_of_true rfl ⟨hcores, hlat⟩
    · rw [refusedConfig, if_neg (by simpa using hcores), if_neg hlat]
      exact iff_of_false (by simp) fun h => hlat h.2

theorem SameParams.refusedConfig {s t : State} (h : SameParams s t) (hs : s.refusedConfig = none) :
    t.refusedConfig = none := by
  rw [State.refusedConfig_eq_none, ← List.length_pos_iff] at hs ⊢
  rw [h.length, h.lat]
  exact hs

/-! ## One core -/

/-- `stalled` stands only with the fetch slot occupied (R166). -/
theorem CoreState.Inv.flag {k : CoreState} {prog : List Template} {lat : LatTable} {c : Nat} (h : k.Inv prog lat c) :
    k.stalled = true → k.slots.f.isSome = true := h.1

theorem CoreState.Inv.one_le_counter {k : CoreState} {prog : List Template} {lat : LatTable} {c : Nat}
    (h : k.Inv prog lat c) {e : ExecSlot} (he : k.slots.e = some e) : 1 ≤ e.lr :=
  have ⟨_, _, hcounter⟩ := h
  (hcounter e he).1

/-- A core's next state meets the core's invariant again. -/
theorem CoreState.Inv.coreNext {k : CoreState} {prog : List Template} {lat : LatTable} {c : Nat}
    (h : k.Inv prog lat c) (hlat : lat.WellFormed) (fwd : Bool) : (coreNext c prog lat fwd k).Inv prog lat c := by
  obtain ⟨hstalled, hrecords, hcounter⟩ := h
  refine ⟨fun hs => ?flag, fun i hi => ?records, fun e he => ?counter⟩
  case flag =>
    rw [coreNext_stalled, Slots.stalledNext] at hs
    split at hs
    · rename_i hf
      simp [Slots.fHeld, Slots.fKept, hs, hf]
    · rename_i hf
      exact absurd (hstalled hs) hf
  case records =>
    rw [Machine.coreNext, finishCore_inFlight, List.mem_append, Option.mem_toList] at hi
    rcases hi with hi | hi
    · obtain ⟨hown, hpc, hentry⟩ := newRecord_eq_some hi
      exact ⟨hown, by rw [hpc, hentry]⟩
    · refine hrecords i ?_
      rw [Slots.inFlight_eq] at hi ⊢
      simp only [List.mem_append, Option.toList_none, List.not_mem_nil, or_false] at hi ⊢
      exact hi.imp_right (Or.imp_right (Or.imp_right .inl))
  case counter =>
    rw [coreNext_e] at he
    cases hb : k.slots.exBusy with
    | true =>
      obtain ⟨e', he', hl⟩ := Slots.exBusy_eq_true.1 hb
      rw [Slots.eNext_of_busy lat he' hl] at he
      obtain rfl := Option.some.inj he
      have := (hcounter e' he').2
      simp only
      omega
    | false =>
      rw [Slots.eNext_of_free lat hb, Option.mem_def, Option.map_eq_some_iff] at he
      obtain ⟨d, -, rfl⟩ := he
      exact ⟨one_le_latencyOf hlat d.opcode, le_rfl⟩

/-- A core is inactive when its slots are empty and its pc indexes no entry (R151). -/
theorem CoreState.active_eq_false {k : CoreState} {n : Nat} :
    k.active n = false ↔ k.slots = .empty ∧ fetchIndex k.pc n = none := by
  obtain ⟨x, pc, stalled, ⟨f, d, e, m, w⟩⟩ := k
  simp [active, Slots.occupied, Slots.empty, and_assoc]

/-- The core's next state of an inactive core is the core, so that a cycle need not tell active cores from others. -/
theorem coreNext_of_inactive {k : CoreState} {prog : List Template} {lat : LatTable} {c : Nat} (h : k.Inv prog lat c)
    (fwd : Bool) (hk : k.active prog.length = false) : coreNext c prog lat fwd k = k := by
  obtain ⟨hslots, hpc⟩ := CoreState.active_eq_false.1 hk
  have hentry : entryAt prog k.pc = none := entryAt_eq_none.2 hpc
  have hstalled : k.stalled = false := by simpa [hslots, Slots.empty] using h.flag
  have hexec : executedCore k = k := executedCore_of_no_call (by simp [hslots, Slots.empty])
  have hnew : newRecord c prog fwd k.slots k = none := newRecord_of_no_entry hentry
  obtain ⟨x, pc, stalled, slots⟩ := k
  obtain rfl : slots = .empty := hslots
  obtain rfl : stalled = false := hstalled
  rw [coreNext, hexec, finishCore, hnew]
  rw [Slots.fHeld_of_empty fwd rfl, Slots.dNext_of_empty fwd rfl]
  simp [Slots.stalledNext, Slots.eNext, Slots.mNext, Slots.dHeld, Slots.exBusy, Slots.inExecute, Slots.empty]

/-! ## The invariant, core by core -/

theorem State.Inv.config {s : State} (h : s.Inv) : s.refusedConfig = none := h.1

theorem State.Inv.idle {s : State} (h : s.Inv) (hterm : s.terminated = true) : s.activeCores = [] :=
  have ⟨_, _, _, hidle⟩ := h
  hidle hterm

theorem State.Inv.core {s : State} (h : s.Inv) {c : Nat} {k : CoreState} (hk : s.cores[c]? = some k) :
    k.Inv s.prog s.lat c := by
  obtain ⟨hc, rfl⟩ := List.getElem?_eq_some_iff.1 hk
  obtain ⟨-, hcores, -, -⟩ := h
  exact hcores c hc

theorem State.Inv.latWellFormed {s : State} (h : s.Inv) : s.lat.WellFormed :=
  (State.refusedConfig_eq_none.1 h.config).2

theorem State.coreActive_of_core {s : State} {c : Nat} {k : CoreState} (hk : s.cores[c]? = some k) :
    s.coreActive c = k.active s.prog.length := by
  simp [coreActive, hk]

theorem State.activeCores_eq_nil {s : State} : s.activeCores = [] ↔ ∀ c, s.coreActive c = false := by
  simp only [List.eq_nil_iff_forall_not_mem, mem_activeCores, Bool.not_eq_true]

/-- From a state that meets the invariant, a step takes every core to its next state: the active ones by their core
steps, and of an inactive one, or once the block has terminated, the next state is the core itself. -/
theorem step_core_of_inv {s t : State} (h : s.Inv) (hstep : step s = .next t) (c : Nat) :
    t.cores[c]? = (s.cores[c]?).map (coreNext c s.prog s.lat s.fwd) := by
  have hidle (hc : s.coreActive c = false) : (s.cores[c]?).map (coreNext c s.prog s.lat s.fwd) = s.cores[c]? := by
    cases hk : s.cores[c]? with
    | none => rfl
    | some k =>
      rw [Option.map_some, coreNext_of_inactive (h.core hk) s.fwd (by rw [← State.coreActive_of_core hk, hc])]
  cases hterm : s.terminated with
  | false =>
    rw [step_core h.ownRecords hstep hterm]
    cases hc : s.coreActive c with
    | true => rfl
    | false => exact (hidle hc).symm
  | true =>
    have hinactive := State.activeCores_eq_nil.1 (h.idle hterm) c
    rcases (step_next hstep).2 with ⟨_, rfl⟩ | ⟨hrunning, _⟩ | ⟨hrunning, _⟩
    · exact (hidle hinactive).symm
    · simp [hterm] at hrunning
    · simp [hterm] at hrunning

/-- A step from a state that is not refused ends terminated only with no core active. -/
theorem step_terminated {s t : State} (hinv : s.terminated = true → s.activeCores = []) (hstep : step s = .next t)
    (hterm : t.terminated = true) : t.activeCores = [] := by
  rcases (step_next hstep).2 with ⟨_, rfl⟩ | ⟨_, hnone, rfl⟩ | ⟨hrunning, _, u, hu, rfl⟩
  · exact hinv hterm
  · exact hnone
  · have hsame : u.terminated = s.terminated := (serviceCores_sameRun hu).terminated
    simp [hsame, hrunning] at hterm

/-- Settles O4: each core's next state meets the core's invariant, and a step leaves the parameters and DMEM. -/
theorem stepKeepsInvariant : Obligations.StepKeepsInvariant := by
  intro s t h hstep
  have hsame := step_sameParams hstep
  have hcores := step_core_of_inv h hstep
  obtain ⟨hconfig, -, hdmem, hidle⟩ := id h
  refine ⟨hsame.refusedConfig hconfig, fun c hc => ?_, hsame.dmem ▸ hdmem, step_terminated hidle hstep⟩
  have hnext := hcores c
  rw [List.getElem?_eq_getElem hc, eq_comm, Option.map_eq_some_iff] at hnext
  obtain ⟨k, hk, hnext⟩ := hnext
  rw [← hnext, hsame.prog, hsame.lat]
  exact (h.core hk).coreNext h.latWellFormed s.fwd

theorem State.Inv.step {s t : State} (h : s.Inv) (hstep : step s = .next t) : t.Inv := stepKeepsInvariant s t h hstep

/-! ## Progress -/

/-- The listed cores' steps all complete when each is a core of the block that executes its own record. -/
theorem serviceCores_completes {cs : List Nat} {s : State} (hn : cs.Nodup)
    (hown : ∀ c ∈ cs, ∃ k, s.cores[c]? = some k ∧ ∀ e ∈ k.slots.e, e.instr.coreId = c) :
    ∃ t, serviceCores cs s = .next t := by
  induction cs generalizing s with
  | nil => exact ⟨s, rfl⟩
  | cons c cs ih =>
    obtain ⟨k, hk, hkown⟩ := hown c (by simp)
    obtain ⟨hc, hn⟩ := List.nodup_cons.1 hn
    obtain ⟨v, hv, -, -⟩ := executePart_own hk hkown
    obtain ⟨u, hu⟩ : ∃ u, coreStep c s = .next u := by rw [coreStep_closed hk, hv]; exact ⟨_, rfl⟩
    obtain ⟨t, ht⟩ := ih (s := u) hn fun d hd => by
      have hdc : d ≠ c := by rintro rfl; exact hc hd
      rw [coreStep_own hk hkown hu, if_neg hdc]
      exact hown d (by simp [hd])
    exact ⟨t, chain_eq_next.2 ⟨u, hu, ht⟩⟩

theorem State.exists_core_of_active {s : State} {c : Nat} (h : s.coreActive c = true) :
    ∃ k, s.cores[c]? = some k := by
  cases hk : s.cores[c]? with
  | none => simp [coreActive, hk] at h
  | some k => exact ⟨k, rfl⟩

theorem step_of_terminated {s : State} (hconfig : s.refusedConfig = none) (hterm : s.terminated = true) :
    step s = .next s := by
  simp [step, schedulerStep, hconfig, hterm]

theorem step_of_no_active {s : State} (hconfig : s.refusedConfig = none) (hterm : s.terminated = false)
    (hidle : s.activeCores = []) : step s = .next { s with terminated := true } := by
  simp [step, schedulerStep, hconfig, hterm, hidle]

theorem step_of_active {s u : State} (hconfig : s.refusedConfig = none) (hterm : s.terminated = false)
    (hactive : s.activeCores ≠ []) (hu : serviceCores s.activeCores s = .next u) :
    step s = .next { u with cycles := u.cycles + 1 } := by
  simp [step, schedulerStep, hconfig, hterm, hactive, serviceCycle, hu]

/-- A step from legal parameters completes when every core executes its own records. -/
theorem step_completes {s : State} (hconfig : s.refusedConfig = none) (hown : OwnRecords s) :
    ∃ t, step s = .next t := by
  cases hterm : s.terminated with
  | true => exact ⟨_, step_of_terminated hconfig hterm⟩
  | false =>
    by_cases hidle : s.activeCores = []
    · exact ⟨_, step_of_no_active hconfig hterm hidle⟩
    · obtain ⟨u, hu⟩ := serviceCores_completes (activeCores_nodup s) fun c hc => by
        obtain ⟨k, hk⟩ := State.exists_core_of_active (mem_activeCores.1 hc)
        exact ⟨k, hk, hown c k hk⟩
      exact ⟨_, step_of_active hconfig hterm hidle hu⟩

/-- From a state that meets the invariant a step completes, with each core at its next state. -/
theorem exists_step_core {s : State} (h : s.Inv) {c : Nat} {k : CoreState} (hk : s.cores[c]? = some k) :
    ∃ t, step s = .next t ∧ t.Inv ∧ t.cores[c]? = some (coreNext c s.prog s.lat s.fwd k) := by
  obtain ⟨t, ht⟩ := step_completes h.config h.ownRecords
  exact ⟨t, ht, h.step ht, by rw [step_core_of_inv h ht, hk, Option.map_some]⟩

/-! ## Runs -/

/-- From a state that meets the invariant, a run of any length goes on, keeps the invariant and the parameters, and
takes each core to the iterate of its next state, whatever the others do. -/
theorem run_of_inv (n : Nat) {s : State} (h : s.Inv) :
    ∃ t, Host.Core.run Sys2Proof.core n s = .next t ∧ t.Inv ∧ SameParams s t ∧
      ∀ c, t.cores[c]? = (s.cores[c]?).map (coreNext c s.prog s.lat s.fwd)^[n] := by
  induction n generalizing s with
  | zero => exact ⟨s, rfl, h, .refl s, fun c => by simp⟩
  | succ n ih =>
    obtain ⟨u, hu⟩ := step_completes h.config h.ownRecords
    have hsame := step_sameParams hu
    obtain ⟨t, ht, htinv, hut, hcores⟩ := ih (h.step hu)
    refine ⟨t, ?_, htinv, hsame.trans hut, fun c => ?_⟩
    · rw [run_succ, hu]
      exact ht
    · rw [hcores c, step_core_of_inv h hu, hsame.prog, hsame.lat, hsame.fwd, Option.map_map, Function.iterate_succ]

/-- The same of a run whose last state is known. -/
theorem run_core_of_inv {n : Nat} {s t : State} (h : s.Inv) (hrun : Host.Core.run Sys2Proof.core n s = .next t) (c : Nat) :
    t.cores[c]? = (s.cores[c]?).map (coreNext c s.prog s.lat s.fwd)^[n] := by
  obtain ⟨t', ht', -, -, hcores⟩ := run_of_inv n h
  rw [hrun] at ht'
  cases ht'
  exact hcores c

/-- The run of one core. -/
theorem exists_run_core (n : Nat) {s : State} (h : s.Inv) {c : Nat} {k : CoreState} (hk : s.cores[c]? = some k) :
    ∃ t, Host.Core.run Sys2Proof.core n s = .next t ∧ t.Inv ∧
      t.cores[c]? = some ((coreNext c s.prog s.lat s.fwd)^[n] k) := by
  obtain ⟨t, ht, htinv, -, hcores⟩ := run_of_inv n h
  exact ⟨t, ht, htinv, by rw [hcores c, hk, Option.map_some]⟩

/-- Settles O42: a step of such a state completes, into a state that meets the invariant again. -/
theorem everyRunGoesOn : Obligations.EveryRunGoesOn := by
  intro n s h
  obtain ⟨t, ht, -⟩ := run_of_inv n h
  exact ⟨t, ht⟩

/-- Settles O34: by induction on the number of steps, each of which changes nothing. -/
theorem terminationIsFinal : Obligations.TerminationIsFinal := by
  intro n s hconfig hterm
  induction n with
  | zero => rfl
  | succ n ih =>
    rw [run_succ, step_of_terminated hconfig hterm]
    exact ih

/-! ## Independence of the cores -/

/-- Settles O36: what a core is after a run is the iterate of a function of that core and the parameters. -/
theorem coresAreIndependent : Obligations.CoresAreIndependent := by
  intro n s s' t t' c h h' hprog hlat hfwd hcore hrun hrun'
  rw [run_core_of_inv h hrun, run_core_of_inv h' hrun', hprog, hlat, hfwd, hcore]

/-- Settles O35: an inactive core is its own next state, so a fixed point of the iteration. -/
theorem inactiveCoreStaysAsItIs : Obligations.InactiveCoreStaysAsItIs := by
  intro n s t c h hinactive hrun
  have hcore : t.cores[c]? = s.cores[c]? := by
    rw [run_core_of_inv h hrun]
    cases hk : s.cores[c]? with
    | none => rfl
    | some k =>
      have hfixed : coreNext c s.prog s.lat s.fwd k = k :=
        coreNext_of_inactive (h.core hk) s.fwd (by rw [← State.coreActive_of_core hk, hinactive])
      rw [Option.map_some, Function.iterate_fixed hfixed]
  refine ⟨hcore, ?_⟩
  have hprog : t.prog = s.prog := (run_sameParams hrun).prog
  unfold State.coreActive at hinactive ⊢
  rw [hcore, hprog]
  exact hinactive

/-! ## Construction -/

@[simp] theorem CoreState.construct_slots (c : Nat) : (CoreState.construct c).slots = .empty := rfl
@[simp] theorem CoreState.construct_pc (c : Nat) : (CoreState.construct c).pc = 0 := rfl
@[simp] theorem CoreState.construct_stalled (c : Nat) : (CoreState.construct c).stalled = false := rfl

theorem refusedConfig_construct {p : Params} : (State.construct p).refusedConfig = none ↔ p.WellFormed := by
  rw [State.refusedConfig_eq_none, ← List.length_pos_iff]
  simp [State.construct, Params.WellFormed, Nat.one_le_iff_ne_zero, Nat.pos_iff_ne_zero]

theorem construct_inv {p : Params} (h : p.WellFormed) : (State.construct p).Inv := by
  refine ⟨refusedConfig_construct.2 h, fun c hc => ?_, Memory.ofArray_wf p.dmemInit, fun hterm => by cases hterm⟩
  have hcore : (State.construct p).cores[c] = CoreState.construct c := by simp [State.construct]
  rw [hcore]
  refine ⟨fun hs => absurd hs (by simp), ?_, ?_⟩
  · simp [Slots.inFlight, Slots.inExecute, Slots.empty]
  · simp [Slots.empty]

/-- Settles O3: an empty pipeline holds no record, and `State.reset` is the construction with legal parameters. -/
theorem constructedStateMeetsInvariant : Obligations.ConstructedStateMeetsInvariant :=
  ⟨fun _ h => construct_inv h, construct_inv (by decide)⟩

/-- Settles O2: the values are those of construction, and DMEM reads as the array it is made from. -/
theorem constructedPipelineAndCounters : Obligations.ConstructedPipelineAndCounters := by
  intro p
  refine ⟨by simp [State.construct], rfl, rfl, rfl, rfl, rfl, rfl, Memory.read_ofArray p.dmemInit, fun k hk => ?_⟩
  obtain ⟨c, -, rfl⟩ := List.mem_map.1 hk
  exact ⟨rfl, rfl, rfl, rfl, rfl, rfl, rfl⟩

end Sys2Proof.Machine
end

