-- ==== Sys2Proof/Proofs/Cycle.lean ====
section
/-! What a cycle does (42_scheduler.md R151 to R168): the counters and termination, the order of the records in
flight, the stall, the structural hold and the move of the fetch step, and the new fetch at the pc the Executor
leaves. -/

namespace Sys2Proof.Machine

/-! ## Counters and termination -/

theorem Slots.inFlight_eq_nil {z : Slots} : z.inFlight = [] ↔ z = .empty := by
  obtain ⟨f, d, e, m, w⟩ := z
  simp [inFlight_eq, inExecute, empty]

/-- R151: a core is active when something is in flight or its pc indexes an entry. -/
theorem State.coreActive_eq_true {s : State} {c : Nat} : s.coreActive c = true ↔
    ∃ k, s.cores[c]? = some k ∧ (k.slots.inFlight ≠ [] ∨ entryAt s.prog k.pc ≠ none) := by
  cases hk : s.cores[c]? with
  | none => simp [coreActive, hk]
  | some k =>
    rw [coreActive_of_core hk, ← Bool.not_eq_false, CoreState.active_eq_false, ← Slots.inFlight_eq_nil,
      ← entryAt_eq_none, not_and_or]
    simp

/-- Settles O32: the three answers of a step, told apart by the active cores. -/
theorem cycleCountAndTermination : Obligations.CycleCountAndTermination := by
  refine ⟨fun s c => State.coreActive_eq_true, fun s hconfig hterm => ⟨fun hidle => ?_, fun c t hactive hstep => ?_⟩⟩
  · exact step_of_no_active hconfig hterm (State.activeCores_eq_nil.2 hidle)
  · rcases (step_next hstep).2 with ⟨hended, _⟩ | ⟨_, hidle, _⟩ | ⟨_, _, u, hu, rfl⟩
    · simp [hterm] at hended
    · simp [State.activeCores_eq_nil.1 hidle c] at hactive
    · have hsame := serviceCores_sameRun hu
      exact ⟨congrArg (· + 1) hsame.cycles, hsame.terminated.trans hterm⟩

/-- Settles O31: each active core counts its own hazard stall, and without an active core there is none to count. -/
theorem stallsCountHazardStalls : Obligations.StallsCountHazardStalls := by
  intro s t hstep hterm
  rcases (step_next hstep).2 with ⟨hended, _⟩ | ⟨_, hidle, rfl⟩ | ⟨_, _, u, hu, rfl⟩
  · simp [hterm] at hended
  · simp [hidle]
  · have hcount : u.stalls = s.stalls + (s.activeCores.filter s.stallsAt).length :=
      serviceCores_stalls (activeCores_nodup s) hu
    exact hcount

/-! ## The slots of an active core, in any state -/

/-- The slots of an active core after a step are those of its finished cycle, for some registers and pc. -/
theorem step_slots {s t : State} {c : Nat} {k k' : CoreState} (hstep : step s = .next t) (hterm : s.terminated = false)
    (hactive : s.coreActive c = true) (hk : s.cores[c]? = some k) (hk' : t.cores[c]? = some k') :
    ∃ k1, k'.slots = (finishCore c s.prog s.lat s.fwd k.slots k1).slots := by
  rcases (step_next hstep).2 with ⟨hended, _⟩ | ⟨_, hidle, _⟩ | ⟨_, _, u, hu, rfl⟩
  · simp [hterm] at hended
  · simp [State.activeCores_eq_nil.1 hidle c] at hactive
  · obtain ⟨ku, k1, hku, -, -, hslots, -⟩ := serviceCores_slots (activeCores_nodup s) hu hk
    rw [if_pos (mem_activeCores.2 hactive)] at hslots
    obtain rfl : k' = ku := Option.some.inj (hk'.symm.trans hku)
    exact ⟨k1, hslots⟩

/-- The memory slot takes the record whose counter has run out. -/
theorem Slots.mNext_eq (z : Slots) : z.mNext = (z.e.filter fun e => decide (e.lr ≤ 1)).map ExecSlot.instr := by
  cases he : z.e with
  | none => simp [mNext, inExecute, he]
  | some e =>
    by_cases hl : 1 < e.lr
    · simp [mNext, exBusy, he, hl]
    · simp [mNext, exBusy, inExecute, he, hl, Nat.not_lt.1 hl]

/-- Settles O29: the records keep their order, and what comes in front of them is the new record alone. -/
theorem nothingDiscardedNothingOvertaken : Obligations.NothingDiscardedNothingOvertaken := by
  intro s t c k k' hstep hterm hactive hk hk'
  obtain ⟨k1, hslots⟩ := step_slots hstep hterm hactive hk hk'
  rw [hslots]
  refine ⟨⟨(newRecord c s.prog s.fwd k.slots k1).toList, Option.length_toList_le, fun i hi => ?_,
    finishCore_inFlight c s.prog s.lat s.fwd k.slots k1⟩, rfl, k.slots.mNext_eq⟩
  obtain ⟨hown, hpc, hentry⟩ := newRecord_eq_some (Option.mem_toList.1 hi)
  exact ⟨hown, by rw [hpc, hentry]⟩

/-- Settles O27: unless execute is counting, the execute slot of the next cycle is loaded from decode. -/
theorem executeEntryLooksUpLatency : Obligations.ExecuteEntryLooksUpLatency := by
  refine ⟨fun lat => ⟨rfl, rfl, rfl, rfl, rfl, rfl⟩, fun s t c k k' d hstep hterm hk hk' hd hfree => ?_⟩
  have hactive : s.coreActive c = true := State.coreActive_eq_true.2 ⟨k, hk, .inl (by simp [Slots.inFlight_eq, hd])⟩
  obtain ⟨k1, hslots⟩ := step_slots hstep hterm hactive hk hk'
  have hnext : k'.slots.e = k.slots.eNext s.lat := by rw [hslots]; rfl
  rw [hnext, Slots.eNext_of_free s.lat (Slots.exBusy_eq_false.2 hfree), hd, Option.map_some]

/-! ## The stall and the hold -/

theorem State.stallsAt_of_core {s : State} {c : Nat} {k : CoreState} (hk : s.cores[c]? = some k) :
    s.stallsAt c = (k.slots.f.isSome && hazard k.slots s.fwd) := by
  simp [stallsAt, hk]

/-- Decode holds its instruction exactly in a structural hold. -/
theorem Slots.dHeld_eq_none {z : Slots} : z.dHeld = none ↔ ¬ (z.executeCounts ∧ z.d ≠ none) := by
  rw [← exBusy_eq_true]
  cases hb : z.exBusy <;> simp [dHeld, hb]

section
variable {z : Slots} {fwd : Bool}

/-- Without a stall and a hold, fetch gives its instruction to decode. -/
theorem Slots.fetch_moves (hstall : (z.f.isSome && hazard z fwd) = false) (hd : z.dHeld = none) :
    z.fHeld fwd = none ∧ z.dNext fwd = z.f := by
  cases hf : z.f with
  | none => exact ⟨fHeld_of_empty fwd hf, by rw [dNext_of_empty fwd hf, hd]⟩
  | some f =>
    have hkept : z.fKept fwd = false := by simpa [fKept, hd, hf] using hstall
    exact ⟨by simp [fHeld, hkept], by rw [dNext_of_moved hkept, hf]⟩

/-- In a stall or a hold, fetch and decode keep what they hold. -/
theorem Slots.fetch_stays (hkept : z.fKept fwd = true) : z.fHeld fwd = z.f ∧ z.dNext fwd = z.dHeld :=
  ⟨by simp [fHeld, hkept], dNext_of_kept hkept⟩

theorem Slots.stalledNext_of_stall (b : Bool) (hstall : (z.f.isSome && hazard z fwd) = true) :
    z.stalledNext fwd b = true := by
  obtain ⟨hf, hh⟩ := Bool.and_eq_true_iff.1 hstall
  simp [stalledNext, hf, hh]

/-- Without a stall the flag falls, since it stands only with the fetch slot occupied (R166). -/
theorem Slots.stalledNext_of_no_stall {b : Bool} (hstall : (z.f.isSome && hazard z fwd) = false)
    (hb : b = true → z.f.isSome = true) : z.stalledNext fwd b = false := by
  cases hf : z.f with
  | none => simpa [stalledNext, hf] using hb
  | some f => simpa [stalledNext, hf] using hstall

end

/-- In a structural hold fetch stays where it is, without counting a stall of its own (R208). -/
theorem coreNext_of_hold {k : CoreState} {c : Nat} {prog : List Template} {lat : LatTable} {fwd : Bool} {f d : Instr}
    (hcounts : k.slots.executeCounts) (hd : k.slots.d = some d) (hf : k.slots.f = some f) :
    (coreNext c prog lat fwd k).slots.f = some f ∧ (coreNext c prog lat fwd k).slots.d = some d ∧
      (coreNext c prog lat fwd k).pc = k.pc := by
  have hbusy : k.slots.exBusy = true := Slots.exBusy_eq_true.2 hcounts
  have hheld : k.slots.dHeld = some d := by rw [Slots.dHeld_of_busy hbusy, hd]
  obtain ⟨hfetch, hdecode⟩ := Slots.fetch_stays (z := k.slots) (fwd := fwd) (by simp [Slots.fKept, hheld])
  have hnew : newRecord c prog fwd k.slots (executedCore k) = none := newRecord_of_held (by simp [hfetch, hf])
  rw [coreNext_f, coreNext_d, coreNext_pc, hfetch, hdecode, hnew, executedCore_of_no_call (.inr hbusy)]
  simp [hf, hheld]

/-- While execute counts, memory becomes empty and no register changes. -/
theorem coreNext_of_counts {k : CoreState} {c : Nat} {prog : List Template} {lat : LatTable} {fwd : Bool} {e : ExecSlot}
    (he : k.slots.e = some e) (hl : 1 < e.lr) :
    (coreNext c prog lat fwd k).slots.e = some { instr := e.instr, lr := e.lr - 1 } ∧
      (coreNext c prog lat fwd k).slots.m = none ∧ (coreNext c prog lat fwd k).x = k.x := by
  have hbusy : k.slots.exBusy = true := Slots.exBusy_eq_true.2 ⟨e, he, hl⟩
  rw [coreNext_e, coreNext_m, coreNext_x, Slots.eNext_of_busy lat he hl, executedCore_of_no_call (.inr hbusy)]
  simp [Slots.mNext, hbusy]

/-- The core after a step from a state that meets the invariant, for a core known before and after. -/
theorem coreNext_of_step {s t : State} {c : Nat} {k k' : CoreState} (h : s.Inv) (hstep : step s = .next t)
    (hk : s.cores[c]? = some k) (hk' : t.cores[c]? = some k') : k' = coreNext c s.prog s.lat s.fwd k := by
  rw [step_core_of_inv h hstep, hk] at hk'
  exact (Option.some.inj hk').symm

/-- Settles O30: the fields of the next state, first with the fetch slot empty and then with it occupied. -/
theorem structuralHold : Obligations.StructuralHold := by
  intro s t c k k' e d h hstep _ hk hk' he hl hd
  obtain rfl := coreNext_of_step h hstep hk hk'
  have hcounts : k.slots.executeCounts := ⟨e, he, hl⟩
  obtain ⟨hexec, hmem, hregs⟩ := coreNext_of_counts (c := c) (prog := s.prog) (lat := s.lat) (fwd := s.fwd) he hl
  refine ⟨?_, hexec, hmem, hregs, fun f hf => ?_⟩
  · cases hf : k.slots.f with
    | none => rw [coreNext_d, Slots.dNext_of_empty _ hf, Slots.dHeld_of_busy (Slots.exBusy_eq_true.2 hcounts), hd]
    | some f =>
      obtain ⟨-, hdecode, -⟩ := coreNext_of_hold (c := c) (prog := s.prog) (lat := s.lat) (fwd := s.fwd) hcounts hd hf
      exact hdecode
  · obtain ⟨hfetch, -, hpc⟩ := coreNext_of_hold (c := c) (prog := s.prog) (lat := s.lat) (fwd := s.fwd) hcounts hd hf
    exact ⟨hfetch, hpc⟩

/-! ## New fetch -/

/-- A core that leaves its fetch slot empty and is not stalled fetches the entry at the pc the execute step left. -/
theorem coreNext_of_new_fetch {k : CoreState} {c : Nat} {prog : List Template} {lat : LatTable} {fwd : Bool}
    (hs : k.slots.stalledNext fwd k.stalled = false) (hf : k.slots.fHeld fwd = none) :
    (∀ tm, entryAt prog (executedCore k).pc = some tm →
      (coreNext c prog lat fwd k).slots.f = some (fetchRecord c (executedCore k).pc tm) ∧
        (coreNext c prog lat fwd k).pc = (executedCore k).pc + 4) ∧
    (entryAt prog (executedCore k).pc = none →
      (coreNext c prog lat fwd k).slots.f = none ∧ (coreNext c prog lat fwd k).pc = (executedCore k).pc) := by
  have hnew : newRecord c prog fwd k.slots (executedCore k) =
      (entryAt prog (executedCore k).pc).map (fetchRecord c (executedCore k).pc) :=
    newRecord_of_free (by rw [executedCore_stalled, hs]) hf
  refine ⟨fun tm htm => ?_, fun hnone => ?_⟩
  · rw [coreNext_f, coreNext_pc, hf, hnew, htm]
    exact ⟨rfl, rfl⟩
  · rw [coreNext_f, coreNext_pc, hf, hnew, hnone]
    exact ⟨rfl, rfl⟩

/-- Settles O48: with decode or fetch empty, a counting execute slot keeps fetch from nothing. -/
theorem structuralHoldWithEmptySlot : Obligations.StructuralHoldWithEmptySlot := by
  intro s t c k k' e h hstep _ hk hk' he hl hempty
  obtain rfl := coreNext_of_step h hstep hk hk'
  have hbusy : k.slots.exBusy = true := Slots.exBusy_eq_true.2 ⟨e, he, hl⟩
  have hstall : (k.slots.f.isSome && hazard k.slots s.fwd) = false := by
    rcases hempty with hf | hd
    · simp [hf]
    · simp [hazard_of_empty_decode s.fwd hd]
  have hs : k.slots.stalledNext s.fwd k.stalled = false := Slots.stalledNext_of_no_stall hstall (h.core hk).flag
  have hmoves : k.slots.fHeld s.fwd = none ∧ k.slots.dNext s.fwd = k.slots.d.or k.slots.f := by
    rcases hempty with hf | hd
    · exact ⟨Slots.fHeld_of_empty s.fwd hf, by
        rw [Slots.dNext_of_empty s.fwd hf, Slots.dHeld_of_busy hbusy, hf, Option.or_none]⟩
    · rw [hd, Option.none_or]
      exact Slots.fetch_moves hstall (by rw [Slots.dHeld_of_busy hbusy, hd])
  obtain ⟨hexec, hmem, hregs⟩ := coreNext_of_counts (c := c) (prog := s.prog) (lat := s.lat) (fwd := s.fwd) he hl
  have hfetch := coreNext_of_new_fetch (c := c) (prog := s.prog) (lat := s.lat) hs hmoves.1
  rw [executedCore_of_no_call (.inr hbusy)] at hfetch
  exact ⟨hmoves.2, hexec, hmem, hregs, by rw [coreNext_stalled, hs], hfetch.1, hfetch.2⟩

/-! ## The pc and the registers the execute step leaves -/

theorem State.Inv.own {s : State} (h : s.Inv) {c : Nat} {k : CoreState} (hk : s.cores[c]? = some k) {e : ExecSlot}
    (he : k.slots.e = some e) : e.instr.coreId = c :=
  h.ownRecords c k hk e he

/-- The Executor's call on the whole block leaves core `c` as `executedCore` says. -/
theorem core_of_exec {s u : State} {c : Nat} {k ku : CoreState} {e : ExecSlot} (hk : s.cores[c]? = some k)
    (hown : e.instr.coreId = c) (he : k.slots.e = some e) (hl : e.lr ≤ 1) (hu : exec e.instr s = .next u)
    (hku : u.cores[c]? = some ku) : ku = executedCore k := by
  obtain ⟨-, rfl⟩ := exec_eq_next.1 hu
  rw [hown, State.updateCore_self, hk] at hku
  rw [executedCore_of_call he hl]
  exact (Option.some.inj hku).symm

theorem pcAfterExecute_executedCore {s : State} (h : s.Inv) {c : Nat} {k : CoreState} (hk : s.cores[c]? = some k) :
    PcAfterExecute s c k (executedCore k).pc := by
  refine ⟨fun hno => ?_, fun e u ku he hl hu hku => ?_⟩
  · rw [executedCore_of_no_call (hno.imp_right Slots.exBusy_eq_true.2)]
  · rw [core_of_exec hk (h.own hk he) he hl.le hu hku]

theorem regsAfterExecute_executedCore {s : State} (h : s.Inv) {c : Nat} {k : CoreState} (hk : s.cores[c]? = some k) :
    RegsAfterExecute s c k (executedCore k).x := by
  refine ⟨fun hno => ?_, fun e u ku he hl hu hku => ?_⟩
  · rw [executedCore_of_no_call (hno.imp_right Slots.exBusy_eq_true.2)]
  · rw [core_of_exec hk (h.own hk he) he hl.le hu hku]

/-- Settles O47: stall, hold or move, as the HazardUnit and the execute slot decide. -/
theorem fetchStepStallsOrMoves : Obligations.FetchStepStallsOrMoves := by
  intro s t c k k' h hstep _ hk hk'
  obtain rfl := coreNext_of_step h hstep hk hk'
  have hheld (hfree : ¬ k.slots.executeCounts) : k.slots.dHeld = none :=
    Slots.dHeld_eq_none.2 fun hhold => hfree hhold.1
  rw [State.stallsAt_of_core hk]
  refine ⟨fun hstall => ?stalls, fun f hf hstall => ?moves, fun hf => ?empty, regsAfterExecute_executedCore h hk⟩
  case stalls =>
    obtain ⟨-, hhazard⟩ := Bool.and_eq_true_iff.1 hstall
    obtain ⟨hfetch, hdecode⟩ := Slots.fetch_stays (z := k.slots) (fwd := s.fwd) (by simp [Slots.fKept, hhazard])
    have hflag : k.slots.stalledNext s.fwd k.stalled = true := Slots.stalledNext_of_stall _ hstall
    have hnew : newRecord c s.prog s.fwd k.slots (executedCore k) = none :=
      newRecord_of_stalled (by rw [executedCore_stalled, hflag])
    refine ⟨by rw [coreNext_f, hfetch, hnew, Option.or_none], by rw [coreNext_stalled, hflag], ?_, fun hfree => ⟨?_, ?_⟩⟩
    · simpa [hnew] using pcAfterExecute_executedCore h hk
    · rw [coreNext_d, hdecode, hheld hfree]
    · intro d hd
      have hbusy : k.slots.exBusy = false := by rwa [← Bool.not_eq_true, Slots.exBusy_eq_true]
      rw [coreNext_e, Slots.eNext_of_free s.lat hbusy, hd, Option.map_some]
  case moves =>
    refine ⟨?_, fun ⟨hcounts, hd⟩ => ?_, fun hfree => ?_⟩
    · rw [coreNext_stalled, Slots.stalledNext_of_no_stall hstall (h.core hk).flag]
    · obtain ⟨d, hd⟩ := Option.ne_none_iff_exists'.1 hd
      obtain ⟨hfetch, hdecode, -⟩ :=
        coreNext_of_hold (c := c) (prog := s.prog) (lat := s.lat) (fwd := s.fwd) hcounts hd hf
      exact ⟨hfetch, by rw [hdecode, hd]⟩
    · rw [coreNext_d, (Slots.fetch_moves hstall (Slots.dHeld_eq_none.2 hfree)).2, hf]
  case empty =>
    refine ⟨by simp [Slots.stalledNext, hf], fun hfree => ?_⟩
    rw [coreNext_d, Slots.dNext_of_empty s.fwd hf, hheld hfree]

/-! ## The target of a jump -/

theorem CoreState.readReg_congr {k k' : CoreState} (h : k'.x = k.x) (r : RegIx) : k'.readReg r = k.readReg r := by
  simp only [readReg, h]

/-- R155: what the Executor leaves as the pc is fetched in the same cycle, unless the core stalls. -/
theorem step_fetches_executed_pc {s u : State} {c : Nat} {k ku : CoreState} {i : Instr} {tm : Template} (h : s.Inv)
    (hk : s.cores[c]? = some k) (he : k.slots.e = some { instr := i, lr := 1 }) (hstall : s.stallsAt c = false)
    (hu : exec i s = .next u) (hku : u.cores[c]? = some ku) (htm : entryAt s.prog ku.pc = some tm) :
    ∃ t k', step s = .next t ∧ t.cores[c]? = some k' ∧ k'.slots.f = some (fetchRecord c ku.pc tm) ∧
      k'.pc = ku.pc + 4 ∧ k'.x = ku.x ∧ k'.slots.d = k.slots.f := by
  obtain ⟨t, ht, -, hk'⟩ := exists_step_core h hk
  obtain rfl : ku = executedCore k := core_of_exec hk (h.own hk he) he le_rfl hu hku
  rw [State.stallsAt_of_core hk] at hstall
  have hfree : k.slots.exBusy = false := Slots.exBusy_eq_false.2 (by simp [he])
  obtain ⟨hheld, hmoved⟩ := Slots.fetch_moves hstall (Slots.dHeld_of_free hfree)
  have hflag := Slots.stalledNext_of_no_stall hstall (h.core hk).flag
  obtain ⟨hfetch, hpc⟩ := (coreNext_of_new_fetch (c := c) (lat := s.lat) hflag hheld).1 tm htm
  exact ⟨t, coreNext c s.prog s.lat s.fwd k, ht, hk', hfetch, hpc, rfl, hmoved⟩

/-- Settles O39: the pc of the Executor's call is the target of a JAL, and of a BNE as its registers compare. -/
theorem jumpTargetFetchedInSameCycle : Obligations.JumpTargetFetchedInSameCycle := by
  refine ⟨fun s c k o r rs1 rs2 imm tm h _ hk he hstall htm => ?jal,
    fun s c k o a b rs2 imm target tm h _ hk he hstall htarget htm => ?bne,
    fun s u c k ku i tm h _ hk he hstall hu hku htm => step_fetches_executed_pc h hk he hstall hu hku htm⟩
  case jal =>
    obtain ⟨hu, hku, -⟩ := exec_frame (i := .jal c o (some r) rs1 rs2 imm) hk
    rw [execCore_jal_some] at hku
    obtain ⟨t, k', ht, hk', hfetch, hpc, hregs, hdecode⟩ := step_fetches_executed_pc h hk he hstall hu hku htm
    refine ⟨t, k', ht, hk', hfetch, hpc, ?_, hdecode⟩
    rw [CoreState.readReg_congr hregs, CoreState.addPc_readReg, CoreState.readReg_writeReg_self]
  case bne =>
    obtain ⟨hu, hku, -⟩ := exec_frame (i := .bne c o (some a) (some b) rs2 imm) hk
    have hcore : (execCore (.bne c o (some a) (some b) rs2 imm) k).pc = target ∧
        (execCore (.bne c o (some a) (some b) rs2 imm) k).x = k.x := by
      by_cases hab : k.readReg a = k.readReg b
      · rw [execCore_bne_of_eq hab, htarget, if_pos hab]
        exact ⟨rfl, rfl⟩
      · rw [execCore_bne_of_ne hab, htarget, if_neg hab]
        exact ⟨rfl, rfl⟩
    obtain ⟨hpcExec, hregsExec⟩ := hcore
    obtain ⟨t, k', ht, hk', hfetch, hpc, hregs, hdecode⟩ :=
      step_fetches_executed_pc h hk he hstall hu hku (by rw [hpcExec]; exact htm)
    rw [hpcExec] at hfetch hpc
    exact ⟨t, k', ht, hk', hfetch, hpc, hregs.trans hregsExec, hdecode⟩

end Sys2Proof.Machine
end

