-- ==== Sys2Proof/Proofs/ForwardingToggle.lean ====
section
/-! A cycle without a hazard stall under both values of the toggle (90_conflicts.md C10): FWD reaches a core's cycle
through the HazardUnit alone, since the ForwardingUnit rewrites nothing. -/

namespace Sys2Proof.Machine

/-- FWD set, everything else as it was. -/
def State.forwarding (s : State) : State := { s with fwd := true }

/-! ## One core -/

/-- Without a stall, the rest of a core's cycle is the same with forwarding on. -/
theorem finishCore_fwd {c : Nat} {prog : List Template} {lat : LatTable} {z : Slots} {fwd : Bool}
    (h : (z.f.isSome && hazard z fwd) = false) :
    finishCore c prog lat true z = finishCore c prog lat fwd z := by
  have hflag : z.stalledNext true = z.stalledNext fwd := by
    funext b
    cases hf : z.f with
    | none => simp [Slots.stalledNext, hf]
    | some f =>
      have hh : hazard z fwd = false := by simpa [hf] using h
      simp [Slots.stalledNext, hf, hh]
  have hfetch : z.fHeld true = z.fHeld fwd ∧ z.dNext true = z.dNext fwd := by
    cases hf : z.f with
    | none =>
      rw [Slots.fHeld_of_empty _ hf, Slots.fHeld_of_empty _ hf, Slots.dNext_of_empty _ hf, Slots.dNext_of_empty _ hf]
      exact ⟨rfl, rfl⟩
    | some f =>
      have hh : hazard z fwd = false := by simpa [hf] using h
      simp [Slots.fHeld, Slots.dNext, Slots.fKept, hh]
  obtain ⟨hheld, hnext⟩ := hfetch
  have hnew : newRecord c prog true z = newRecord c prog fwd z := by
    funext k
    rw [newRecord, newRecord, hflag, hheld]
  funext k
  rw [finishCore, finishCore, hflag, hheld, hnext, hnew]

/-- The Executor does not look at the toggle. -/
theorem executePart_forwarding {z : Slots} {s u : State} (h : executePart z s = .next u) :
    executePart z s.forwarding = .next u.forwarding := by
  unfold executePart at h ⊢
  split at h
  · cases h
    rfl
  · rename_i e he
    split at h
    · rename_i hl
      cases h
      simp [hl]
    · rename_i hl
      obtain ⟨⟨k, hk⟩, rfl⟩ := exec_eq_next.1 h
      have hk' : s.forwarding.cores[e.instr.coreId]? = some k := hk
      simp only [hl, if_false]
      rw [exec_of_core hk']
      rfl

theorem coreStep_forwarding {s t : State} {c : Nat} (hstall : s.stallsAt c = false) (h : coreStep c s = .next t) :
    coreStep c s.forwarding = .next t.forwarding := by
  cases hk : s.cores[c]? with
  | none => simp [coreStep, beforeNewFetch, hk] at h
  | some k =>
    obtain ⟨u, hu, rfl⟩ := coreStep_next hk h
    have hsame := (executePart_sameRun hu).1
    have hstalls := (executePart_sameRun hu).2
    have hfinish := finishCore_fwd (c := c) (prog := s.prog) (lat := s.lat) (State.stallsAt_of_core hk ▸ hstall)
    have hk' : s.forwarding.cores[c]? = some k := hk
    rw [coreStep_closed hk', executePart_forwarding hu, hstall, ← hfinish]
    simp [State.forwarding, State.updateCore, hsame.prog, hsame.lat, hstalls]

/-! ## All active cores -/

theorem serviceCores_forwarding {cs : List Nat} {s t : State} (hn : cs.Nodup) (hstall : ∀ c ∈ cs, s.stallsAt c = false)
    (h : serviceCores cs s = .next t) : serviceCores cs s.forwarding = .next t.forwarding := by
  induction cs generalizing s with
  | nil => cases h; rfl
  | cons c cs ih =>
    obtain ⟨u, hu, ht⟩ := chain_eq_next.1 h
    obtain ⟨hc, hn⟩ := List.nodup_cons.1 hn
    refine chain_eq_next.2 ⟨_, coreStep_forwarding (hstall c (by simp)) hu, ih hn (fun d hd => ?_) ht⟩
    have hdc : d ≠ c := by rintro rfl; exact hc hd
    rw [stallsAt_of_slots (coreStep_sameRun hu).1.fwd (coreStep_other_slots hu hdc)]
    exact hstall d (by simp [hd])

/-- Settles O37: the same cores are active, and each takes the same core step. -/
theorem forwardingOnlyRemovesStalls : Obligations.ForwardingOnlyRemovesStalls := by
  intro s t _ hstall hstep
  obtain ⟨hconfig, hcases⟩ := step_next hstep
  have hconfig' : s.forwarding.refusedConfig = none := hconfig
  have hactive : s.forwarding.activeCores = s.activeCores := rfl
  show step s.forwarding = .next t.forwarding
  rcases hcases with ⟨hterm, rfl⟩ | ⟨hterm, hidle, rfl⟩ | ⟨hterm, hsome, u, hu, rfl⟩
  · exact step_of_terminated hconfig' hterm
  · exact step_of_no_active hconfig' hterm hidle
  · exact step_of_active hconfig' hterm hsome (serviceCores_forwarding (activeCores_nodup s) (fun c _ => hstall c) hu)

end Sys2Proof.Machine
end

