-- ==== Sys2Proof/Proofs/Latency.lean ====
section
/-! The latency counter over several cycles (41_pipeline_units.md R140, R142; 42_scheduler.md R165): how long an
instruction stays in execute, and its way from the fetch slot out of writeback. -/

namespace Sys2Proof.Machine

section
variable {c : Nat} {prog : List Template} {lat : LatTable} {fwd : Bool} {k : CoreState} {e : ExecSlot}

/-- R142: while the counter runs, execute keeps its record and the counter goes down by one a cycle. -/
theorem iterate_coreNext_counts (he : k.slots.e = some e) {n : Nat} (hn : n < e.lr) :
    ((coreNext c prog lat fwd)^[n] k).slots.e = some { instr := e.instr, lr := e.lr - n } := by
  induction n with
  | zero => simpa using he
  | succ n ih =>
    have hnow := ih (Nat.lt_of_succ_lt hn)
    have hcounts : 1 < e.lr - n := by omega
    rw [Function.iterate_succ_apply', (coreNext_of_counts hnow hcounts).1, Nat.sub_sub]

/-- With its counter run out, the record goes to memory. -/
theorem coreNext_m_of_call (he : k.slots.e = some e) (hl : e.lr ≤ 1) :
    (coreNext c prog lat fwd k).slots.m = some e.instr := by
  rw [coreNext_m, Slots.mNext_eq, he]
  simp [hl]

/-- The cycle of the last count is cycle `lr`. -/
theorem iterate_coreNext_m (he : k.slots.e = some e) (hl : 1 ≤ e.lr) :
    ((coreNext c prog lat fwd)^[e.lr] k).slots.m = some e.instr := by
  obtain ⟨n, hn⟩ := Nat.exists_eq_add_of_le' hl
  have hlast : ((coreNext c prog lat fwd)^[n] k).slots.e = some { instr := e.instr, lr := 1 } := by
    rw [iterate_coreNext_counts he (by omega)]
    simp [hn]
  rw [hn, Function.iterate_succ_apply', coreNext_m_of_call hlast le_rfl]

end

/-- Settles O38: the iterates of the core's next state, counted down from the counter. -/
theorem latencyOccupiesExecuteExactly : Obligations.LatencyOccupiesExecuteExactly := by
  intro s c k e h _ hk he
  refine ⟨fun n hn => ?_, ?_⟩
  · obtain ⟨t, ht, -, hk'⟩ := exists_run_core n h hk
    exact ⟨t, _, ht, hk', iterate_coreNext_counts he hn⟩
  · obtain ⟨t, ht, -, hk'⟩ := exists_run_core e.lr h hk
    exact ⟨t, _, ht, hk', iterate_coreNext_m he ((h.core hk).one_le_counter he)⟩

/-! ## From fetch to retirement -/

/-- From decode, behind an execute slot that does not count, an instruction enters execute with its full latency. -/
theorem coreNext_e_of_decode {c : Nat} {prog : List Template} {lat : LatTable} {fwd : Bool} {k : CoreState} {i : Instr}
    (hd : k.slots.d = some i) (hfree : ¬ k.slots.executeCounts) :
    (coreNext c prog lat fwd k).slots.e = some { instr := i, lr := latencyOf lat i.opcode } := by
  rw [← Slots.exBusy_eq_true, Bool.not_eq_true] at hfree
  rw [coreNext_e, Slots.eNext_of_free lat hfree, hd, Option.map_some]

/-- From the cycle in which an instruction executes: its call, then memory, writeback, and out of the pipeline. -/
theorem execute_to_retirement {s : State} {c : Nat} {k : CoreState} {i : Instr} (h : s.Inv) (hk : s.cores[c]? = some k)
    (he : k.slots.e = some { instr := i, lr := 1 }) :
    ∃ tm tw tr : State, ∃ km kw kr : CoreState, step s = .next tm ∧ step tm = .next tw ∧ step tw = .next tr ∧
      tm.cores[c]? = some km ∧ tw.cores[c]? = some kw ∧ tr.cores[c]? = some kr ∧
      (∃ u ku, exec i s = .next u ∧ u.cores[c]? = some ku ∧ km.x = ku.x) ∧
      km.slots.m = some i ∧ kw.slots.w = some i ∧ kr.slots.w = kw.slots.m := by
  obtain ⟨tm, htm, hm, hkm⟩ := exists_step_core h hk
  obtain ⟨tw, htw, hw, hkw⟩ := exists_step_core hm hkm
  obtain ⟨tr, htr, -, hkr⟩ := exists_step_core hw hkw
  have hmem := coreNext_m_of_call (c := c) (prog := s.prog) (lat := s.lat) (fwd := s.fwd) he le_rfl
  have hown : i.coreId = c := h.own hk he
  obtain ⟨hu, hku, -⟩ := exec_frame (i := i) (hown ▸ hk)
  rw [hown] at hu hku
  refine ⟨tm, tw, tr, _, _, _, htm, htw, htr, hkm, hkw, hkr, ⟨_, _, hu, hku, ?_⟩, hmem, hmem, rfl⟩
  rw [coreNext_x, executedCore_of_call he le_rfl]

/-- Settles O49: decode after one cycle, execute after two, the count of the latency, and the way out. -/
theorem pathThroughThePipeline : Obligations.PathThroughThePipeline := by
  intro s t1 c k k1 i h _ hk hf hstall hhold hstep hk1 hfree1
  obtain rfl := coreNext_of_step h hstep hk hk1
  rw [State.stallsAt_of_core hk] at hstall
  have hdecode : (coreNext c s.prog s.lat s.fwd k).slots.d = some i := by
    rw [coreNext_d, (Slots.fetch_moves hstall (Slots.dHeld_eq_none.2 hhold)).2, hf]
  have hentered : (coreNext c s.prog s.lat s.fwd (coreNext c s.prog s.lat s.fwd k)).slots.e =
      some { instr := i, lr := latencyOf s.lat i.opcode } := coreNext_e_of_decode hdecode hfree1
  have hcounts (n : Nat) (hn : n < latencyOf s.lat i.opcode) :
      ((coreNext c s.prog s.lat s.fwd)^[2 + n] k).slots.e =
        some { instr := i, lr := latencyOf s.lat i.opcode - n } := by
    rw [Nat.add_comm]
    exact iterate_coreNext_counts hentered hn
  refine ⟨hdecode, fun n hn => ?_, ?_⟩
  · obtain ⟨t, ht, -, hk'⟩ := exists_run_core (2 + n) h hk
    exact ⟨t, _, ht, hk', hcounts n hn⟩
  · obtain ⟨te, hte, heinv, hke⟩ := exists_run_core (1 + latencyOf s.lat i.opcode) h hk
    have hpos : 1 ≤ latencyOf s.lat i.opcode := one_le_latencyOf h.latWellFormed i.opcode
    have hlast : ((coreNext c s.prog s.lat s.fwd)^[1 + latencyOf s.lat i.opcode] k).slots.e =
        some { instr := i, lr := 1 } := by
      obtain ⟨n, hn⟩ := Nat.exists_eq_add_of_le' hpos
      have hone := hcounts n (by omega)
      rw [hn, Nat.add_sub_cancel_left] at hone
      rw [hn, ← hone]
      congr 3
      omega
    obtain ⟨tm, tw, tr, km, kw, kr, htm, htw, htr, hkm, hkw, hkr, hrest⟩ := execute_to_retirement heinv hke hlast
    exact ⟨te, tm, tw, tr, _, km, kw, kr, hte, htm, htw, htr, hke, hkm, hkw, hkr, hrest⟩

end Sys2Proof.Machine
end

