-- ==== Sys2Proof/Proofs/Units.lean ====
section
/-! The units by themselves: the fetch index (20_memory.md R51, R57), new fetch (42_scheduler.md R161), the HazardUnit
and the ForwardingUnit (41_pipeline_units.md R131 to R137), the Executor's confinement (40_instructions.md R100), and
its call within the core step (42_scheduler.md R163). -/

namespace Sys2Proof.Machine

/-! ## Instruction fetch -/

/-- Settles O22: `p / 4 = j` as an interval of `p`, the division being floor. -/
theorem fetchIndexExactly : Obligations.FetchIndexExactly := by
  intro p n j
  unfold fetchIndex
  split
  · rename_i hp
    rw [Option.some_inj]
    omega
  · rename_i hp
    simp only [reduceCtorEq, false_iff]
    omega

/-- Settles O23: the two answers of the new-fetch step. -/
theorem newFetchBuildsRecord : Obligations.NewFetchBuildsRecord := by
  intro c w k hk
  refine ⟨fun hidle => newFetchStep_idle hk ?_, fun tm hstalled hempty htm => ?_⟩
  · rcases hidle with hstalled | hfilled | hnone
    · simp [hstalled]
    · simp [Option.isSome_iff_ne_none, hfilled]
    · exact .inr hnone
  · have hfree : (k.stalled || w.nxt.f.isSome) = false := by simp [hstalled, hempty]
    rw [newFetchStep_takes hk hfree htm]
    exact ⟨fetchRecord c k.pc tm, k.advance, rfl, fetchRecord_template c k.pc tm, fetchRecord_coreId c k.pc tm,
      fetchRecord_originPc c k.pc tm, by rw [State.updateCore_self, hk, Option.map_some], rfl,
      sameOutside_updateCore w.st c CoreState.advance, rfl⟩

/-! ## The HazardUnit -/

/-- A hazard: forwarding off, decode occupied, and a producer in flight that it depends on. -/
theorem hazard_eq_true {z : Slots} {fwd : Bool} :
    hazard z fwd = true ↔ fwd = false ∧ ∃ d p, z.d = some d ∧ z.holdsProducer p ∧ dependsOn d p = true := by
  cases fwd with
  | true => simp
  | false => cases hd : z.d <;> simp [hazard, hd, Slots.mem_producers]

/-- Settles O24: the unit's answer is the hazard, and a dependence is a shared register. -/
theorem hazardUnitAnswer : Obligations.HazardUnitAnswer := by
  intro z fwd n
  cases hh : hazard z fwd with
  | false =>
    refine ⟨?_, by simp [hazardUnit, hh]⟩
    have hnone := hazard_eq_true.not.1 (Bool.eq_false_iff.1 hh)
    simp only [hazardUnit, hh, Bool.false_eq_true, if_false, false_iff]
    rintro ⟨hfwd, d, p, a, hd, hp, hrd, hsource⟩
    exact hnone ⟨hfwd, d, p, hd, hp, dependsOn_eq_true.2 ⟨a, hrd, hsource⟩⟩
  | true =>
    refine ⟨?_, by simp [hazardUnit, hh]⟩
    obtain ⟨hfwd, d, p, hd, hp, hdep⟩ := hazard_eq_true.1 hh
    obtain ⟨a, hrd, hsource⟩ := dependsOn_eq_true.1 hdep
    simp only [hazardUnit, hh, if_true, true_iff]
    exact ⟨hfwd, d, p, a, hd, hp, hrd, hsource⟩

/-! ## The ForwardingUnit -/

/-- Settles O26: no producer's turn rewrites a field to another value. -/
theorem forwardingUnitIsIdentity : Obligations.ForwardingUnitIsIdentity :=
  fun z d => foldl_forwardFrom z.producers d

/-! ## The Executor within the core step -/

/-- A record of no core is refused by name (log 3). -/
theorem exec_of_no_core {i : Instr} {s : State} (h : ¬ i.WellFormed s.cores.length) :
    exec i s = .refused (.noSuchCore i.coreId) := by
  have hnone : s.cores[i.coreId]? = none := List.getElem?_eq_none (Nat.not_lt.1 h)
  rw [exec_eq_onCore]
  simp [onCore, hnone]

/-- Settles O12: a completed call is one change of the record's core, within the frame of every call. -/
theorem executorConfinedToItsCore : Obligations.ExecutorConfinedToItsCore := by
  refine ⟨fun i s t hnext => ?_, fun i s => ⟨fun hi => ?_, fun ⟨t, hnext⟩ => ?_⟩, fun i s => exec_of_no_core⟩
  · obtain ⟨⟨k, hk⟩, rfl⟩ := exec_eq_next.1 hnext
    exact ⟨k, execCore i k, hk, (exec_frame hk).2⟩
  · exact ⟨_, exec_of_core (List.getElem?_eq_getElem hi)⟩
  · obtain ⟨⟨k, hk⟩, -⟩ := exec_eq_next.1 hnext
    exact (List.getElem?_eq_some_iff.1 hk).1

/-- A core step whose counter has run out, written out: the Executor's call, then the core's other steps. -/
theorem coreStep_of_call {s : State} {c : Nat} {k : CoreState} {i : Instr} (hk : s.cores[c]? = some k)
    (he : k.slots.e = some { instr := i, lr := 1 }) :
    coreStep c s = chain (exec i s) fun t =>
      .next (commitSlots c (newFetchStep c (fetchStep c k.slots (decodeStep k.slots
        { st := t, nxt := { f := none, d := none, e := none, m := some i, w := k.slots.m }, exBusy := false })))) := by
  unfold coreStep beforeNewFetch
  rw [hk]
  simp only [executeStep, he, writebackStep, memoryStep, startWork, Slots.empty]
  cases exec i s <;> rfl

/-- On a block of one core that is active, a step is that core's step with the cycle counted. -/
theorem step_of_one_core {s : State} {k : CoreState} (hcores : s.cores = [k]) (hlat : s.lat.WellFormed)
    (hterm : s.terminated = false) (hactive : k.active s.prog.length = true) :
    step s = chain (coreStep 0 s) fun t => .next { t with cycles := t.cycles + 1 } := by
  have hconfig : s.refusedConfig = none := State.refusedConfig_eq_none.2 ⟨by simp [hcores], hlat⟩
  have hget : s.cores[0]? = some k := by simp [hcores]
  have hk : s.coreActive 0 = true := by rw [State.coreActive_of_core hget, hactive]
  have hcs : s.activeCores = [0] := by simp [State.activeCores, hcores, hk]
  simp only [step, schedulerStep, hconfig, hterm, hcs, serviceCycle, serviceCores]
  cases coreStep 0 s <;> rfl

/-- Settles O28: the execute slot's record runs, and the core is active since the slot is occupied. -/
theorem stepRunsDecodedInstruction : Obligations.StepRunsDecodedInstruction := by
  refine ⟨fun s c w k i hk _ he => coreStep_of_call hk he, fun s w k i hcores hlat hterm _ he => ?_⟩
  exact step_of_one_core hcores hlat hterm (by simp [CoreState.active, Slots.occupied, he])

end Sys2Proof.Machine
end

