-- ==== Sys2Proof/Proofs/FirstCycle.lean ====
section
/-! The first step after construction (42_scheduler.md R162; 70_reset_and_hazards.md R201): the empty program, and the
first cycle of any other. -/

namespace Sys2Proof.Machine

/-! ## The first cycle -/

theorem entryAt_zero (tm : Template) (rest : List Template) : entryAt (tm :: rest) 0 = some tm := by
  have hindex : fetchIndex 0 (tm :: rest).length = some 0 := by simp [fetchIndex]
  rw [entryAt, hindex]
  rfl

/-- Settles O41: no core of the constructed block has an entry at its pc. -/
theorem emptyProgramTerminatesAtOnce : Obligations.EmptyProgramTerminatesAtOnce := by
  intro p hp hprog
  have hidle : (State.construct p).activeCores = [] := by
    refine State.activeCores_eq_nil.2 fun c => Bool.eq_false_iff.2 fun hactive => ?_
    obtain ⟨k, hk, hwork⟩ := State.coreActive_eq_true.1 hactive
    obtain ⟨d, -, rfl⟩ := List.mem_map.1 (List.mem_of_getElem? hk)
    have hentry : entryAt (State.construct p).prog (CoreState.construct d).pc = none := by
      simp [State.construct, hprog, entryAt]
    exact hwork.elim (fun hflight => hflight (Slots.inFlight_eq_nil.2 rfl)) fun hpc => hpc hentry
  exact ⟨_, step_of_no_active (refusedConfig_construct.2 hp) rfl hidle, rfl, rfl, rfl, rfl⟩

/-- A core with an empty pipeline fetches the entry at its pc. -/
theorem coreNext_of_empty {c : Nat} {prog : List Template} {k : CoreState} {tm : Template} (lat : LatTable) (fwd : Bool)
    (hslots : k.slots = .empty) (hstalled : k.stalled = false) (htm : entryAt prog k.pc = some tm) :
    coreNext c prog lat fwd k =
      { k with pc := k.pc + 4, slots := { Slots.empty with f := some (fetchRecord c k.pc tm) } } := by
  have hexec : executedCore k = k := executedCore_of_no_call (by simp [hslots, Slots.empty])
  have hf : k.slots.f = none := by rw [hslots]; rfl
  have hheld : k.slots.dHeld = none := Slots.dHeld_eq_none.2 (by simp [hslots, Slots.empty])
  have hflag : k.slots.stalledNext fwd k.stalled = false := by simp [Slots.stalledNext, hf, hstalled]
  have hnew : newRecord c prog fwd k.slots k = some (fetchRecord c k.pc tm) := by
    rw [newRecord_of_free hflag (Slots.fHeld_of_empty fwd hf), htm, Option.map_some]
  rw [coreNext, hexec, finishCore, hnew, hflag, Slots.fHeld_of_empty fwd hf, Slots.dNext_of_empty fwd hf, hheld, hslots,
    hstalled]
  rfl

/-- The first cycle of a core whose program has an entry. -/
theorem coreNext_construct {c : Nat} {prog : List Template} {tm : Template} (lat : LatTable) (fwd : Bool)
    (htm : entryAt prog 0 = some tm) :
    coreNext c prog lat fwd (.construct c) =
      { CoreState.construct c with pc := 4, slots := { Slots.empty with f := some (fetchRecord c 0 tm) } } :=
  coreNext_of_empty (k := .construct c) lat fwd rfl rfl htm

/-- Settles O40: every core is active, for its pc indexes entry 0, and takes the step of an empty pipeline. -/
theorem firstCycleFetchesEntryZero : Obligations.FirstCycleFetchesEntryZero := by
  intro p tm rest hp hprog
  have h := construct_inv hp
  obtain ⟨t, ht⟩ := step_completes h.config h.ownRecords
  have hzero : entryAt p.prog 0 = some tm := by rw [hprog, entryAt_zero]
  have hcore (c : Nat) (hc : c < p.numCores) := State.getElem?_cores_construct p hc
  have hactive : (State.construct p).coreActive 0 = true :=
    State.coreActive_eq_true.2 ⟨_, hcore 0 hp.1, .inr (Option.ne_none_iff_exists'.2 ⟨tm, hzero⟩)⟩
  obtain ⟨hcycles, hterm⟩ := (cycleCountAndTermination.2 _ h.config rfl).2 0 t hactive ht
  have hnostall : (State.construct p).activeCores.filter (State.construct p).stallsAt = [] := by
    refine List.filter_eq_nil_iff.2 fun c hc => ?_
    obtain ⟨k, hk⟩ := State.exists_core_of_active (mem_activeCores.1 hc)
    obtain ⟨d, -, rfl⟩ := List.mem_map.1 (List.mem_of_getElem? hk)
    simp [State.stallsAt_of_core hk, Slots.empty]
  refine ⟨t, ht, hcycles, ?_, hterm, List.ext_getElem? fun c => ?_⟩
  · rw [stallsCountHazardStalls _ _ ht rfl, hnostall]
    rfl
  · rw [step_core_of_inv h ht]
    by_cases hc : c < p.numCores
    · have hnext := coreNext_construct (c := c) p.lat p.fwd hzero
      rw [hcore c hc, Option.map_some]
      simp only [List.getElem?_map, List.getElem?_range hc, Option.map_some]
      exact congrArg some hnext
    · simp [State.construct, hc]

end Sys2Proof.Machine
end

