-- ==== Sys2Proof/Proofs/LoneInstruction.lean ====
section
/-! A program of one entry on one core (42_scheduler.md R165, 70_reset_and_hazards.md R210): the run of a block of one
core that does not stall, cycle by cycle, and the way of its one instruction. -/

namespace Sys2Proof.Machine

/-! ## Runs of one core -/

/-- A core that works in its next cycle without a hazard stall. -/
def CoreState.RunsFreely (prog : List Template) (fwd : Bool) (k : CoreState) : Prop :=
  k.active prog.length = true ∧ (k.slots.f.isSome && hazard k.slots fwd) = false

/-- The block of one core after its core has gone on to `k'` in `n` cycles without a stall. -/
def State.afterCycles (s : State) (n : Nat) (k' : CoreState) : State := { s with cores := [k'], cycles := s.cycles + n }

theorem step_of_runsFreely {s : State} {k : CoreState} (h : s.Inv) (hcores : s.cores = [k])
    (hterm : s.terminated = false) (hfree : k.RunsFreely s.prog s.fwd) :
    step s = .next (s.afterCycles 1 (coreNext 0 s.prog s.lat s.fwd k)) := by
  obtain ⟨hactive, hstall⟩ := hfree
  have hk : s.cores[0]? = some k := by simp [hcores]
  obtain ⟨u, hu, hsame, huk⟩ := executePart_own hk fun e he => h.own hk he
  obtain ⟨v, hv⟩ : ∃ v, coreStep 0 s = .next v := by rw [coreStep_closed hk, hu]; exact ⟨_, rfl⟩
  have hvsame := (coreStep_sameRun hv).1
  have hvstalls := (coreStep_sameRun hv).2
  rw [State.stallsAt_of_core hk, hstall] at hvstalls
  have hvcores : v.cores = [coreNext 0 s.prog s.lat s.fwd k] := by
    refine List.ext_getElem? fun d => ?_
    rw [coreStep_own hk (fun e he => h.own hk he) hv d, hcores]
    cases d with
    | zero => rfl
    | succ d => simp
  rw [step_of_one_core hcores h.latWellFormed hterm hactive, hv]
  obtain ⟨cores, cycles, stalls, terminated, prog, lat, fwd, dmem⟩ := v
  obtain ⟨-, hcycles, hterm', hprog, hlat, hfwd, hdmem⟩ := hvsame
  simp only at hvcores hcycles hvstalls hterm' hprog hlat hfwd hdmem
  subst hvcores hcycles hvstalls hterm' hprog hlat hfwd hdmem
  rfl

/-- `FreeRun prog lat fwd n k k'`: core 0 goes from `k` to `k'` in `n` cycles, each of them free. -/
inductive FreeRun (prog : List Template) (lat : LatTable) (fwd : Bool) : Nat → CoreState → CoreState → Prop where
  | refl (k : CoreState) : FreeRun prog lat fwd 0 k k
  | cons {n : Nat} {k k1 k' : CoreState} (hfree : k.RunsFreely prog fwd) (hnext : coreNext 0 prog lat fwd k = k1)
      (hrest : FreeRun prog lat fwd n k1 k') : FreeRun prog lat fwd (n + 1) k k'

/-- A free run of the one core is a run of the block. -/
theorem run_of_freeRun {prog : List Template} {lat : LatTable} {fwd : Bool} {n : Nat} {k k' : CoreState}
    (hrun : FreeRun prog lat fwd n k k') {s : State} (h : s.Inv) (hcores : s.cores = [k]) (hterm : s.terminated = false)
    (hprog : s.prog = prog) (hlat : s.lat = lat) (hfwd : s.fwd = fwd) :
    Host.Core.run Sys2Proof.core n s = .next (s.afterCycles n k') := by
  induction hrun generalizing s with
  | refl k =>
    obtain ⟨cores, cycles, stalls, terminated, prog, lat, fwd, dmem⟩ := s
    obtain rfl : cores = [k] := hcores
    rfl
  | @cons n k k1 k' hfree hnext _ ih =>
    have hstep := step_of_runsFreely h hcores hterm (by rwa [hprog, hfwd])
    rw [hprog, hlat, hfwd, hnext] at hstep
    have hrun := ih (s := s.afterCycles 1 k1) (h.step hstep) rfl hterm hprog hlat hfwd
    rw [run_succ, hstep]
    refine hrun.trans ?_
    simp only [State.afterCycles, Nat.add_assoc, Nat.add_comm 1 n]

/-! ## A pipeline with one instruction -/

/-- A core with other slots. -/
def CoreState.withSlots (k : CoreState) (z : Slots) : CoreState := { k with slots := z }

/-- Slots in which nothing stands behind the instruction in decode, and it behind nothing in execute. -/
def Slots.Uncrowded (z : Slots) : Prop := z.d = none ∨ z.f = none ∧ z.e = none

section
variable {prog : List Template} {lat : LatTable} {fwd : Bool} {k : CoreState} {z : Slots}

theorem Slots.Uncrowded.no_stall (h : z.Uncrowded) : (z.f.isSome && hazard z fwd) = false := by
  rcases h with hd | ⟨hf, -⟩
  · rw [hazard_of_empty_decode fwd hd, Bool.and_false]
  · simp [hf]

theorem Slots.Uncrowded.no_hold (h : z.Uncrowded) : z.dHeld = none := by
  refine dHeld_eq_none.2 fun ⟨⟨e, he, _⟩, hd⟩ => ?_
  rcases h with hd' | ⟨-, he'⟩
  · exact hd hd'
  · simp [he'] at he

theorem Slots.Uncrowded.runsFreely (h : z.Uncrowded) (hwork : z.occupied = true) :
    (k.withSlots z).RunsFreely prog fwd :=
  ⟨by rw [CoreState.active, show (k.withSlots z).slots = z from rfl, hwork, Bool.true_or], h.no_stall⟩

/-- With nothing to fetch at the pc the execute step leaves, each slot hands its instruction on. -/
theorem coreNext_withSlots (h : z.Uncrowded) (hstalled : k.stalled = false)
    (hnone : entryAt prog (executedCore (k.withSlots z)).pc = none) :
    coreNext 0 prog lat fwd (k.withSlots z) =
      (executedCore (k.withSlots z)).withSlots
        { f := none, d := z.f, e := z.eNext lat, m := z.mNext, w := z.m } := by
  obtain ⟨hfetch, hdecode⟩ := Slots.fetch_moves (fwd := fwd) h.no_stall h.no_hold
  have hnew : newRecord 0 prog fwd z (executedCore (k.withSlots z)) = none := newRecord_of_no_entry hnone
  have hexec : (executedCore (k.withSlots z)).stalled = false := by rw [executedCore_stalled]; exact hstalled
  have hflag : z.stalledNext fwd false = false := Slots.stalledNext_of_no_stall h.no_stall (by simp)
  rw [coreNext, show (k.withSlots z).slots = z from rfl, finishCore, hnew, hexec, hflag, hfetch, hdecode, ← hexec]
  rfl

end

/-- One instruction in flight, in fetch. -/
def Slots.fetching (i : Instr) : Slots := { f := some i, d := none, e := none, m := none, w := none }
/-- One instruction in flight, in decode. -/
def Slots.decoding (i : Instr) : Slots := { f := none, d := some i, e := none, m := none, w := none }
/-- One instruction in flight, in execute with its counter. -/
def Slots.executing (i : Instr) (lr : Nat) : Slots :=
  { f := none, d := none, e := some { instr := i, lr := lr }, m := none, w := none }
/-- One instruction in flight, in memory. -/
def Slots.inMemory (i : Instr) : Slots := { f := none, d := none, e := none, m := some i, w := none }
/-- One instruction in flight, in writeback. -/
def Slots.inWriteback (i : Instr) : Slots := { f := none, d := none, e := none, m := none, w := some i }

section
variable {prog : List Template} {lat : LatTable} {fwd : Bool} {k : CoreState} {i : Instr} {lr : Nat}

/-- One cycle of a pipeline that calls no Executor and has nothing to fetch. -/
theorem FreeRun.hands_on {z : Slots} {n : Nat} {k' : CoreState} (h : z.Uncrowded) (hwork : z.occupied = true)
    (hno : z.e = none ∨ z.exBusy = true) (hstalled : k.stalled = false) (hpc : entryAt prog k.pc = none)
    (hrest : FreeRun prog lat fwd n
      (k.withSlots { f := none, d := z.f, e := z.eNext lat, m := z.mNext, w := z.m }) k') :
    FreeRun prog lat fwd (n + 1) (k.withSlots z) k' := by
  have hexec : executedCore (k.withSlots z) = k.withSlots z := executedCore_of_no_call hno
  refine .cons (h.runsFreely hwork) ?_ hrest
  rw [coreNext_withSlots h hstalled (by rw [hexec]; exact hpc), hexec]
  rfl

/-- From memory an instruction leaves the pipeline in two cycles. -/
theorem freeRun_inMemory (hstalled : k.stalled = false) (hpc : entryAt prog k.pc = none) :
    FreeRun prog lat fwd 2 (k.withSlots (.inMemory i)) (k.withSlots .empty) :=
  .hands_on (.inl rfl) rfl (.inl rfl) hstalled hpc <|
    .hands_on (z := .inWriteback i) (.inl rfl) rfl (.inl rfl) hstalled hpc <| .refl _

/-- From execute it takes its counter's cycles, and two. -/
theorem freeRun_executing (hstalled : k.stalled = false) (hpc : entryAt prog k.pc = none)
    (htarget : entryAt prog (execCore i (k.withSlots (.executing i 1))).pc = none) (n : Nat) :
    FreeRun prog lat fwd (n + 3) (k.withSlots (.executing i (n + 1)))
      ((execCore i (k.withSlots (.executing i 1))).withSlots .empty) := by
  induction n with
  | zero =>
    have hexec : executedCore (k.withSlots (.executing i 1)) = execCore i (k.withSlots (.executing i 1)) :=
      executedCore_of_call (e := { instr := i, lr := 1 }) rfl le_rfl
    refine .cons (Slots.Uncrowded.runsFreely (.inl rfl) rfl) ?_
      (freeRun_inMemory (i := i) (by rw [execCore_stalled]; exact hstalled) htarget)
    rw [coreNext_withSlots (.inl rfl) hstalled (by rw [hexec]; exact htarget), hexec]
    rfl
  | succ n ih =>
    have hbusy : (Slots.executing i (n + 1 + 1)).exBusy = true := by simp [Slots.exBusy, Slots.executing]
    refine .hands_on (.inl rfl) rfl (.inr hbusy) hstalled hpc ?_
    rw [Slots.eNext_of_busy lat rfl (by simp), Slots.mNext, hbusy]
    exact ih

/-- From fetch it takes two cycles, those of its latency, and two. -/
theorem freeRun_fetching (hlat : lat.WellFormed) (hstalled : k.stalled = false) (hpc : entryAt prog k.pc = none)
    (htarget : entryAt prog (execCore i (k.withSlots (.executing i 1))).pc = none) :
    FreeRun prog lat fwd (latencyOf lat i.opcode + 4) (k.withSlots (.fetching i))
      ((execCore i (k.withSlots (.executing i 1))).withSlots .empty) := by
  obtain ⟨n, hn⟩ := Nat.exists_eq_add_of_le' (one_le_latencyOf hlat i.opcode)
  have hexec := freeRun_executing (lat := lat) (fwd := fwd) hstalled hpc htarget n
  rw [← hn] at hexec
  rw [hn]
  exact .hands_on (.inl rfl) rfl (.inl rfl) hstalled hpc <|
    .hands_on (z := .decoding i) (.inr ⟨rfl, rfl⟩) rfl (.inl rfl) hstalled hpc hexec

end

/-! ## The program of one entry -/

/-- Where all registers are equal, no BNE branches: only a JAL with its `rd` moves the pc by its immediate. -/
theorem execCore_pc_of_equal_registers {i : Instr} {k : CoreState} (heq : ∀ a b, k.readReg a = k.readReg b) :
    i.opcode = .jal ∧ i.rd ≠ none ∧ (execCore i k).pc = k.pc + i.imm ∨ (execCore i k).pc = k.pc + 4 := by
  cases i with
  | jal c o rd rs1 rs2 imm =>
    cases rd with
    | none => exact .inr rfl
    | some r => exact .inl ⟨rfl, by simp [Instr.rd], rfl⟩
  | bne c o rd rs1 rs2 imm =>
    right
    cases rd with
    | none => rw [execCore_bne_absent (.inl rfl), CoreState.advance_pc]
    | some a =>
      cases rs1 with
      | none => rw [execCore_bne_absent (.inr rfl), CoreState.advance_pc]
      | some b => rw [execCore_bne_of_eq (heq a b), CoreState.advance_pc]
  | add => exact .inr execCore_add_pc
  | sub => exact .inr execCore_sub_pc
  | swap => exact .inr execCore_swap_pc
  | unknown => exact .inr rfl

theorem fetchRecord_opcode (c : Nat) (pc : Word) (tm : Template) : (fetchRecord c pc tm).opcode = tm.opcode :=
  congrArg Template.opcode (fetchRecord_template c pc tm)

theorem fetchRecord_rd (c : Nat) (pc : Word) (tm : Template) : (fetchRecord c pc tm).rd = tm.rd :=
  congrArg Template.rd (fetchRecord_template c pc tm)

theorem fetchRecord_imm (c : Nat) (pc : Word) (tm : Template) : (fetchRecord c pc tm).imm = tm.imm :=
  congrArg Template.imm (fetchRecord_template c pc tm)

theorem CoreState.readReg_construct_zero (r : RegIx) : (construct 0).readReg r = 0 := by
  by_cases hr : r = 3
  · rw [hr, readReg_three_construct]
    rfl
  · exact readReg_construct_of_ne_three 0 hr

/-- Core 0 past its first fetch, its slots left out. -/
def CoreState.pastEntryZero : CoreState := { CoreState.construct 0 with pc := 4 }

/-- No register of core 0 differs from another before the first instruction, so entry 0 is left by 4 or jumps. -/
theorem entryAt_after_entry_zero {tm : Template} (z : Slots)
    (htarget : tm.opcode = .jal → tm.rd ≠ none → entryAt [tm] (4 + tm.imm) = none) :
    entryAt [tm] (execCore (fetchRecord 0 0 tm) (CoreState.pastEntryZero.withSlots z)).pc = none := by
  have heq (a b : RegIx) :
      (CoreState.pastEntryZero.withSlots z).readReg a = (CoreState.pastEntryZero.withSlots z).readReg b :=
    (CoreState.readReg_construct_zero a).trans (CoreState.readReg_construct_zero b).symm
  rcases execCore_pc_of_equal_registers (i := fetchRecord 0 0 tm) heq with ⟨hop, hrd, hpc⟩ | hpc
  · rw [fetchRecord_opcode] at hop
    rw [fetchRecord_rd] at hrd
    rw [hpc, fetchRecord_imm]
    exact htarget hop hrd
  · have height : entryAt [tm] (4 + 4) = none := entryAt_eq_none.2 rfl
    rw [hpc]
    exact height

/-- After construction with one entry, a free run of all its cycles ends with an empty pipeline and nothing to fetch. -/
theorem exists_freeRun_of_lone {tm : Template} {lat : LatTable} (hlat : lat.WellFormed) (fwd : Bool)
    (htarget : tm.opcode = .jal → tm.rd ≠ none → entryAt [tm] (4 + tm.imm) = none) :
    ∃ k, FreeRun [tm] lat fwd (latencyOf lat tm.opcode + 5) (.construct 0) k ∧ k.active 1 = false := by
  have hzero : entryAt [tm] (CoreState.construct 0).pc = some tm := entryAt_zero tm []
  have hfour : entryAt [tm] 4 = none := entryAt_eq_none.2 rfl
  have hleft := entryAt_after_entry_zero (.executing (fetchRecord 0 0 tm) 1) htarget
  have hrest := freeRun_fetching (fwd := fwd) hlat rfl hfour hleft
  rw [fetchRecord_opcode] at hrest
  refine ⟨_, .cons ⟨?_, rfl⟩ (coreNext_construct lat fwd hzero) hrest, ?_⟩
  · rw [← Bool.not_eq_false, CoreState.active_eq_false, ← entryAt_eq_none, hzero]
    simp
  · exact CoreState.active_eq_false.2 ⟨rfl, entryAt_eq_none.1 hleft⟩

/-- Settles O50: entry 0 is fetched, goes its way through an empty pipeline, and leaves a core with nothing to do. -/
theorem loneInstructionRun : Obligations.LoneInstructionRun := by
  intro p tm hp hcores hprog htarget
  obtain ⟨k, hfree, hidle⟩ := exists_freeRun_of_lone hp.2 p.fwd htarget
  rw [Nat.add_comm] at hfree
  have hone : (State.construct p).cores = [CoreState.construct 0] := by simp [State.construct, hcores]
  have hrun := run_of_freeRun hfree (construct_inv hp) hone rfl hprog rfl rfl
  refine ⟨_, hrun, Nat.zero_add _, rfl, rfl, ?_⟩
  refine step_of_no_active ((run_sameParams hrun).refusedConfig (refusedConfig_construct.2 hp)) rfl ?_
  refine State.activeCores_eq_nil.2 fun c => ?_
  cases c with
  | zero =>
    have hlength : p.prog.length = 1 := by rw [hprog]; rfl
    rw [State.coreActive_of_core (k := k) rfl, ← hidle, ← hlength]
    rfl
  | succ c => rfl

end Sys2Proof.Machine
end

