-- ==== Sys2Proof/Proofs/StageRegister.lean ====
section
/-! The stage register (30_encoding.md R82): each field of an encoded record is read back from its bits, whatever
stands above `core_id`, so both the slot's register and the execute slot's decode to what they encode. -/

namespace Sys2Proof

/-! ## Fields -/

theorem opcodeOfCode_opcodeCode (op : Opcode) : opcodeOfCode (opcodeCode op) = some op := by
  cases op <;> rfl

theorem opcodeCode_lt (op : Opcode) : opcodeCode op < 8 := by
  cases op <;> decide

theorem regOfCode_regCode (r : RegField) : regOfCode (regCode r) = r := by
  cases r with
  | none => rfl
  | some r =>
    have hr := r.isLt
    have hpresent : (32 + r.val) / 32 % 2 = 1 := by omega
    have hindex : (32 + r.val) % 32 = r.val := by omega
    rw [regCode, regOfCode, if_pos hpresent]
    exact congrArg some (Fin.ext hindex)

theorem regCode_lt (r : RegField) : regCode r < 64 := by
  cases r with
  | none => decide
  | some r => simp only [regCode]; omega

/-- `core_id` fits its field. -/
theorem lt_two_pow_coreIdBits {c numCores : Nat} (h : c < numCores) : c < 2 ^ coreIdBits numCores := by
  unfold coreIdBits
  split
  · omega
  · exact lt_of_le_of_lt (Nat.le_sub_one_of_lt h) Nat.lt_log2_self

/-- A record is its opcode and its fields. -/
theorem Instr.ofFields_self (i : Instr) :
    Instr.ofFields i.opcode i.coreId i.originPc i.rd i.rs1 i.rs2 i.imm = i :=
  Machine.Instr.withSources_self i

/-! ## The word of a record -/

/-- The bits below `core_id` of an encoded record. -/
def lowBits (i : Instr) : Nat := encodeTemplate i.template + i.originPc.toNat * 2 ^ 54

theorem encode_eq (i : Instr) : encode i = lowBits i + i.coreId * 2 ^ 86 := rfl

/-- Every field of the low bits, whatever stands from bit 86 on. -/
theorem bitField_lowBits (i : Instr) (high : Nat) :
    bitField (lowBits i + high * 2 ^ 86) 0 1 = 1 ∧
      bitField (lowBits i + high * 2 ^ 86) 1 3 = opcodeCode i.opcode ∧
      bitField (lowBits i + high * 2 ^ 86) 4 6 = regCode i.rd ∧
      bitField (lowBits i + high * 2 ^ 86) 10 6 = regCode i.rs1 ∧
      bitField (lowBits i + high * 2 ^ 86) 16 6 = regCode i.rs2 ∧
      bitField (lowBits i + high * 2 ^ 86) 22 32 = i.imm.toNat ∧
      bitField (lowBits i + high * 2 ^ 86) 54 32 = i.originPc.toNat ∧
      (lowBits i + high * 2 ^ 86) / 2 ^ 86 = high := by
  have hop := opcodeCode_lt i.opcode
  have hrd := regCode_lt i.rd
  have hrs1 := regCode_lt i.rs1
  have hrs2 := regCode_lt i.rs2
  have himm := i.imm.isLt
  have hpc := i.originPc.isLt
  simp only [bitField, lowBits, encodeTemplate, Instr.template]
  refine ⟨?_, ?_, ?_, ?_, ?_, ?_, ?_, ?_⟩ <;> omega

/-- A record decodes from its bits with anything above `core_id`. -/
theorem decodeSlot_encode_add {numCores : Nat} {i : Instr} (h : i.WellFormed numCores) (high : Nat) :
    decodeSlot numCores (encode i + high * 2 ^ (86 + coreIdBits numCores)) = .ok (some i) := by
  have hword : encode i + high * 2 ^ (86 + coreIdBits numCores) =
      lowBits i + (i.coreId + high * 2 ^ coreIdBits numCores) * 2 ^ 86 := by
    rw [encode_eq, pow_add]
    ring
  obtain ⟨hvalid, hop, hrd, hrs1, hrs2, himm, hpc, hhigh⟩ :=
    bitField_lowBits i (i.coreId + high * 2 ^ coreIdBits numCores)
  have hcore : bitField (lowBits i + (i.coreId + high * 2 ^ coreIdBits numCores) * 2 ^ 86) 86 (coreIdBits numCores) =
      i.coreId := by
    rw [bitField, hhigh, Nat.add_mul_mod_self_right, Nat.mod_eq_of_lt (lt_two_pow_coreIdBits h)]
  rw [hword]
  simp only [decodeSlot, hvalid, hop, hrd, hrs1, hrs2, himm, hpc, hcore, opcodeOfCode_opcodeCode, regOfCode_regCode,
    BitVec.ofNat_toNat, BitVec.setWidth_eq, Instr.ofFields_self, one_ne_zero, if_false]
  rw [if_pos h]

/-- What stands above `core_id` is the counter. -/
theorem encode_add_div {numCores : Nat} {i : Instr} (h : i.WellFormed numCores) (high : Nat) :
    (encode i + high * 2 ^ (86 + coreIdBits numCores)) / 2 ^ (86 + coreIdBits numCores) = high := by
  have hbelow : encode i < 2 ^ (86 + coreIdBits numCores) := by
    have hlow : lowBits i < 2 ^ 86 := by
      obtain ⟨-, -, -, -, -, -, -, hhigh⟩ := bitField_lowBits i 0
      rw [Nat.zero_mul, Nat.add_zero] at hhigh
      exact Nat.lt_of_div_eq_zero (by decide) hhigh
    have hcore := lt_two_pow_coreIdBits h
    rw [encode_eq, pow_add]
    calc lowBits i + i.coreId * 2 ^ 86 < 2 ^ 86 + i.coreId * 2 ^ 86 := Nat.add_lt_add_right hlow _
      _ = 2 ^ 86 * (i.coreId + 1) := by ring
      _ ≤ 2 ^ 86 * 2 ^ coreIdBits numCores := Nat.mul_le_mul_left _ hcore
  rw [Nat.add_mul_div_right _ _ (Nat.two_pow_pos _), Nat.div_eq_of_lt hbelow, Nat.zero_add]

theorem encodeExecSlot_some (numCores : Nat) (i : Instr) (lr : Nat) :
    encodeExecSlot numCores (some (i, lr)) = encode i + lr * 2 ^ (86 + coreIdBits numCores) := by
  rw [encodeExecSlot, encode]

/-! ## The obligations -/

/-- Settles O13: a record with nothing above `core_id`. -/
theorem stageRegisterRoundTrip : Obligations.StageRegisterRoundTrip := by
  intro numCores i h
  simpa using decodeSlot_encode_add h 0

/-- Settles O14: a record with its counter above `core_id`. -/
theorem executeStageRegisterRoundTrip : Obligations.ExecuteStageRegisterRoundTrip := by
  intro numCores i lr h hlr
  have hslot := decodeSlot_encode_add h lr
  have hcounter := encode_add_div h lr
  rw [← encodeExecSlot_some] at hslot hcounter
  rw [decodeExecSlot, hslot, hcounter]
  exact if_neg (Nat.one_le_iff_ne_zero.1 hlr)

/-- Settles O15: the decoder reads bit 0 first, then the opcode bits. -/
theorem stageRegisterEmptyAndReserved : Obligations.StageRegisterEmptyAndReserved := by
  refine ⟨fun numCores w hvalid => ?_, fun numCores w hvalid hcode => ?_⟩
  · simp [decodeSlot, bitField, hvalid]
  · have hfield : bitField w 1 3 = w / 2 % 8 := by simp [bitField]
    have hnone : opcodeOfCode (w / 2 % 8) = none := by rcases hcode with h | h <;> rw [h] <;> rfl
    have hbit : bitField w 0 1 ≠ 0 := by simp [bitField, hvalid]
    simp only [decodeSlot, hfield, hnone, if_neg hbit]

/-- Settles O16: each word is the code of its record. -/
theorem sampleWordsDecode : Obligations.SampleWordsDecode := by
  unfold Obligations.SampleWordsDecode
  decide

end Sys2Proof
end

