-- ==== Sys2Proof/Proofs/BlockInterface.lean ====
section
/-! The block interface (42_scheduler.md R170, R171; 70_reset_and_hazards.md R202): refused configurations, calls
before and after the start of a run, the reset line, the outputs and the program port; and the partition of DMEM
(20_memory.md R58). -/

namespace Sys2Proof.Machine

/-! ## Configurations -/

theorem step_of_refused {s : State} {r : Refusal} (h : s.refusedConfig = some r) : step s = .refused r := by
  simp [step, schedulerStep, h]

/-- Settles O43: every step asks for the cores first, then for the latencies. -/
theorem refusedConfigurations : Obligations.RefusedConfigurations := by
  refine ⟨fun s hnone => step_of_refused ?_, fun s hsome hlat => step_of_refused ?_, fun p => refusedConfig_construct.symm⟩
  · simp [State.refusedConfig, hnone]
  · rw [State.refusedConfig, if_neg (by simpa using hsome), if_neg hlat]

/-- Before a run a call has its effect. -/
theorem beforeRun_of_not_started {s : State} (t : State) (hcycles : s.cycles = 0) (hterm : s.terminated = false) :
    beforeRun s t = .next t :=
  beforeRun_eq_next.2 ⟨by simp [State.runStarted, hcycles, hterm], rfl⟩

theorem beforeRun_of_started {s : State} (t : State) (h : s.runStarted = true) : beforeRun s t = .refused .runStarted := by
  simp [beforeRun, h]

/-- After any step a run has started: the step has ended a cycle or the run. -/
theorem runStarted_of_step {s t : State} (h : step s = .next t) : t.runStarted = true := by
  rcases (step_next h).2 with ⟨hterm, rfl⟩ | ⟨-, -, rfl⟩ | ⟨-, -, u, -, rfl⟩
  · simp [State.runStarted, hterm]
  · simp [State.runStarted]
  · simp [State.runStarted]

theorem latencyOf_set_self {op : Opcode} (h : op ≠ .unknown) (l : LatTable) (n : Nat) :
    latencyOf (LatTable.set l op n) op = n := by
  cases op with
  | unknown => exact absurd rfl h
  | jal | bne | add | sub | swap => rfl

theorem latencyOf_set_of_ne {op q : Opcode} (h : q ≠ op) (l : LatTable) (n : Nat) :
    latencyOf (LatTable.set l op n) q = latencyOf l q := by
  cases q with
  | unknown => rfl
  | jal => cases op with | jal => exact absurd rfl h | _ => rfl
  | bne => cases op with | bne => exact absurd rfl h | _ => rfl
  | add => cases op with | add => exact absurd rfl h | _ => rfl
  | sub => cases op with | sub => exact absurd rfl h | _ => rfl
  | swap => cases op with | swap => exact absurd rfl h | _ => rfl

/-- A known opcode with a positive latency: the call is a call before a run. -/
theorem setLatency_eq_beforeRun {op : Opcode} {n : Nat} (hop : op ≠ .unknown) (hn : 1 ≤ n) (s : State) :
    setLatency op n s = beforeRun s { s with lat := LatTable.set s.lat op n } := by
  rw [setLatency, if_neg hop, if_neg (Nat.not_lt.2 hn)]

theorem loadText_of_ok {text : List Char} {p : List Template} (h : transcribe text = .ok p) (s : State) :
    loadText text s = loadProgram p s := by
  simp only [loadText, h]

theorem loadText_of_error {text : List Char} {e : TextRefusal} (h : transcribe text = .error e) (s : State) :
    loadText text s = .refused (.text e) := by
  simp only [loadText, h]

/-- Settles O44: each call but a refused one is a change of one parameter, given to `beforeRun`. -/
theorem configurationOnlyBeforeRun : Obligations.ConfigurationOnlyBeforeRun := by
  refine ⟨fun op n b s hcycles hterm => ?before, fun op n b p s t hstep => ?after⟩
  case before =>
    have hcall (t : State) := beforeRun_of_not_started t hcycles hterm
    refine ⟨fun hop hn => ?_, by simp [setLatency], fun hop => by simp [setLatency, hop], hcall _, fun p => hcall _,
      fun text p htext => ?_, fun text e htext => loadText_of_error htext s, fun vs => ?_⟩
    · exact ⟨LatTable.set s.lat op n, by rw [setLatency_eq_beforeRun hop hn, hcall], latencyOf_set_self hop s.lat n,
        fun q hq => latencyOf_set_of_ne hq s.lat n⟩
    · rw [loadText_of_ok htext]
      exact hcall _
    · exact ⟨.ofArray vs, hcall _, Memory.read_ofArray vs⟩
  case after =>
    have hcall (u : State) := beforeRun_of_started u (runStarted_of_step hstep)
    refine ⟨fun hop hn => ?_, hcall _, hcall _, fun vs => hcall _, fun text q htext => ?_,
      fun text e htext => loadText_of_error htext t⟩
    · rw [setLatency_eq_beforeRun hop hn, hcall]
    · rw [loadText_of_ok htext]
      exact hcall _

/-! ## The reset line -/

/-- The line puts back all but what no run changes. -/
theorem resetLine_of_sameParams {s t : State} (h : SameParams s t) : t.resetLine = s.resetLine := by
  obtain ⟨hlength, hprog, hlat, hfwd, hdmem⟩ := h
  simp [State.resetLine, hlength, hprog, hlat, hfwd, hdmem]

theorem resetLine_construct (p : Params) : (State.construct p).resetLine = State.construct p := by
  simp [State.resetLine, State.construct]

/-- Settles O45: a run keeps the parameters, and construction is made of these alone. -/
theorem resetLineReconstructs : Obligations.ResetLineReconstructs := by
  refine ⟨fun n p t hrun => ?_, fun s => rfl⟩
  have hreset : t.resetLine = State.construct p := by
    rw [resetLine_of_sameParams (run_sameParams hrun), resetLine_construct]
  exact ⟨hreset, congrArg Host.Outcome.next hreset⟩

/-! ## The outputs and the program port -/

/-- The port's index and the new record are of one pc: an index is that of the entry that is fetched, and without one
nothing is. -/
theorem coreNext_of_progRdIdx {s : State} {c : Nat} {k : CoreState} (h : s.Inv) (hterm : s.terminated = false)
    (hk : s.cores[c]? = some k) :
    (∀ j, s.progRdIdx c = some j → fetchIndex (executedCore k).pc s.prog.length = some j ∧
      ∀ tm, s.prog[j]? = some tm →
        (coreNext c s.prog s.lat s.fwd k).slots.f = some (fetchRecord c (executedCore k).pc tm) ∧
          (coreNext c s.prog s.lat s.fwd k).pc = (executedCore k).pc + 4) ∧
    (s.progRdIdx c = none → (coreNext c s.prog s.lat s.fwd k).slots.f = k.slots.fHeld s.fwd ∧
      (coreNext c s.prog s.lat s.fwd k).pc = (executedCore k).pc) := by
  have hport := progRdIdx_closed hk (fun e he => h.own hk he) hterm
  have hskip (hnew : newRecord c s.prog s.fwd k.slots (executedCore k) = none) :
      (coreNext c s.prog s.lat s.fwd k).slots.f = k.slots.fHeld s.fwd ∧
        (coreNext c s.prog s.lat s.fwd k).pc = (executedCore k).pc := by
    rw [coreNext_f, coreNext_pc, hnew]
    exact ⟨Option.or_none, rfl⟩
  cases hblocked : k.slots.stalledNext s.fwd k.stalled || (k.slots.fHeld s.fwd).isSome with
  | true =>
    rw [hport, if_pos hblocked]
    refine ⟨fun j hj => absurd hj (by simp), fun _ => hskip ?_⟩
    rcases Bool.or_eq_true_iff.1 hblocked with hstalled | hheld
    · exact newRecord_of_stalled (by rwa [executedCore_stalled])
    · exact newRecord_of_held hheld
  | false =>
    obtain ⟨hstalled, hheld⟩ := Bool.or_eq_false_iff.1 hblocked
    rw [Option.isSome_eq_false_iff, Option.isNone_iff_eq_none] at hheld
    rw [hport, if_neg (by rw [hblocked]; exact Bool.false_ne_true)]
    refine ⟨fun j hj => ⟨hj, fun tm htm => ?_⟩, fun hnone => hskip ?_⟩
    · exact (coreNext_of_new_fetch hstalled hheld).1 tm (by rw [entryAt, hj]; exact htm)
    · exact newRecord_of_no_entry (entryAt_eq_none.2 hnone)

/-- Settles O53: the outputs are the state's fields, and the port shows the new fetch of the next step. -/
theorem blockOutputs : Obligations.BlockOutputs := by
  refine ⟨fun n p t hrun => ?outputs, fun s t c k k' h hterm hstep hk hk' => ?port⟩
  case outputs =>
    have hsame := run_sameParams hrun
    have hlength : t.cores.length = p.numCores := by rw [hsame.length]; simp [State.construct]
    refine ⟨rfl, rfl, rfl, fun c => List.getElem?_map, fun c hc => ?_, fun a => ?_⟩
    · simp [State.outputs, hlength, hc]
    · rw [State.outputs, hsame.dmem]
      exact Memory.read_ofArray p.dmemInit a
  case port =>
    obtain rfl := coreNext_of_step h hstep hk hk'
    obtain ⟨hindex, hnone⟩ := coreNext_of_progRdIdx h hterm hk
    have hpc := pcAfterExecute_executedCore h hk
    refine ⟨fun j hj => ?_, fun hno => ?_⟩
    · obtain ⟨hfetch, hentry⟩ := hindex j hj
      have htm := List.getElem?_eq_getElem (fetchIndex_lt hfetch)
      exact ⟨_, _, hpc, hfetch, htm, hentry _ htm⟩
    · obtain ⟨hf, hpc'⟩ := hnone hno
      rw [hf, hpc']
      refine ⟨?_, hpc⟩
      unfold Slots.fHeld
      split
      · exact .inr rfl
      · exact .inl rfl

/-! ## The partition of DMEM -/

/-- The core whose range holds an index: the quotient to which the rounding of R58 (D22) leads. -/
def Memory.ownerOf (m : Memory) (numCores a : Nat) : Nat := ((a + 1) * numCores - 1) / m.size

/-- An index is in a core's range exactly when the core owns it. -/
theorem mem_ownedRange_iff {m : Memory} {numCores a : Nat} (hcores : 1 ≤ numCores) (ha : a < m.size) (c : Nat) :
    (m.ownedRange numCores c).1 ≤ a ∧ a < (m.ownedRange numCores c).2 ↔ c = m.ownerOf numCores a := by
  have hsize : 0 < m.size := Nat.zero_lt_of_lt ha
  have hpos : 0 < (a + 1) * numCores := Nat.mul_pos a.succ_pos hcores
  have hfirst : c * m.size / numCores ≤ a ↔ c ≤ m.ownerOf numCores a := by
    rw [Memory.ownerOf, Nat.le_div_iff_mul_le hsize, ← Nat.lt_add_one_iff, Nat.div_lt_iff_lt_mul hcores]
    omega
  have hend : a < (c + 1) * m.size / numCores ↔ m.ownerOf numCores a ≤ c := by
    rw [Memory.ownerOf, ← Nat.lt_add_one_iff (n := c), Nat.div_lt_iff_lt_mul hsize, Nat.lt_iff_add_one_le,
      Nat.le_div_iff_mul_le hcores]
    omega
  show c * m.size / numCores ≤ a ∧ a < (c + 1) * m.size / numCores ↔ c = m.ownerOf numCores a
  rw [hfirst, hend]
  exact le_antisymm_iff.symm

theorem ownerOf_lt {m : Memory} {numCores a : Nat} (hcores : 1 ≤ numCores) (ha : a < m.size) :
    m.ownerOf numCores a < numCores := by
  have hpos : 0 < (a + 1) * numCores := Nat.mul_pos a.succ_pos hcores
  have hle : (a + 1) * numCores ≤ m.size * numCores := Nat.mul_le_mul_right _ ha
  exact Nat.div_lt_of_lt_mul (by omega)

/-- Settles O46: a range ends where the next begins, by definition, and an index is in the range of its owner alone. -/
theorem ownedRangesTileMemory : Obligations.OwnedRangesTileMemory := by
  intro m numCores hcores
  refine ⟨by simp [Memory.ownedRange], ?_, fun c => rfl, fun a ha => ?_⟩
  · show (numCores - 1 + 1) * m.size / numCores = m.size
    rw [Nat.sub_add_cancel hcores, Nat.mul_div_cancel_left _ hcores]
  · exact ⟨m.ownerOf numCores a, ⟨ownerOf_lt hcores ha, (mem_ownedRange_iff hcores ha _).2 rfl⟩,
      fun c hc => (mem_ownedRange_iff hcores ha c).1 hc.2⟩

end Sys2Proof.Machine
end

