-- ==== Sys2Proof/Proofs/ArithmeticInstructions.lean ====
section
/-! ADD, SUB and UNKNOWN (40_instructions.md R105, R106, R108), assembled as JAL, BNE and SWAP are; and the opcode
tokens (30_encoding.md R72, R73): which token selects which opcode, and which is refused for its letter case. -/

namespace Sys2Proof

/-! ## Opcode tokens -/

theorem opcodeOf_opcodeToken (op : Opcode) : opcodeOf (opcodeToken op) = op := by
  cases op <;> decide

theorem opcodeToken_upper (op : Opcode) : (opcodeToken op).map upperChar = opcodeToken op := by
  cases op <;> decide

/-- A known opcode is selected by its own token alone. -/
theorem opcodeOf_eq_iff {op : Opcode} (h : op ≠ .unknown) {t : List Char} : opcodeOf t = op ↔ t = opcodeToken op := by
  refine ⟨fun ht => ?_, fun ht => ht ▸ opcodeOf_opcodeToken op⟩
  unfold opcodeOf at ht
  split_ifs at ht <;> subst ht
  case neg => exact absurd rfl h
  all_goals assumption

theorem opcodeOf_eq_unknown {t : List Char} : opcodeOf t = .unknown ↔ ∀ op, op ≠ .unknown → t ≠ opcodeToken op := by
  refine ⟨fun ht op hop hself => hop ?_, fun h => ?_⟩
  · rw [← ht, hself, opcodeOf_opcodeToken]
  · by_contra hknown
    exact h _ hknown ((opcodeOf_eq_iff hknown).1 rfl)

/-- A token of neither form of a known opcode is no case variant. -/
theorem caseVariantOf_eq_none {t : List Char} (h : ∀ op, op ≠ .unknown → t.map upperChar ≠ opcodeToken op) :
    caseVariantOf t = none := by
  simp [caseVariantOf, opcodeOf_eq_unknown.2 h]

/-- A token that is a known opcode's but for letter case is its variant: no other opcode's token has these capitals. -/
theorem caseVariantOf_eq_some {op : Opcode} {t : List Char} (hop : op ≠ .unknown) (hne : t ≠ opcodeToken op)
    (hupper : t.map upperChar = opcodeToken op) : caseVariantOf t = some op := by
  have hunknown : opcodeOf t = .unknown := by
    refine opcodeOf_eq_unknown.2 fun q _ hself => hne ?_
    rw [hself, opcodeToken_upper] at hupper
    rw [hself, hupper]
  simp [caseVariantOf, hunknown, hupper, opcodeOf_opcodeToken, hop]

end Sys2Proof

namespace Sys2Proof.Machine

/-! ## ADD -/

section
variable {c : Nat} {o : Word} {rd rs1 rs2 : RegField} {imm : Word} {k : CoreState}

theorem execCore_add_some {d a b : RegIx} :
    execCore (.add c o (some d) (some a) (some b) imm) k =
      (k.writeReg d (k.readReg a + k.readReg b)).advance := rfl

theorem execCore_sub_some {d a b : RegIx} :
    execCore (.sub c o (some d) (some a) (some b) imm) k =
      (k.writeReg d (k.readReg a - k.readReg b)).advance := rfl

theorem execCore_add_absent (h : rd = none ∨ rs1 = none ∨ rs2 = none) :
    execCore (.add c o rd rs1 rs2 imm) k = k.advance := by
  rcases h with rfl | rfl | rfl
  · rfl
  · cases rd <;> rfl
  · cases rd <;> cases rs1 <;> rfl

theorem execCore_sub_absent (h : rd = none ∨ rs1 = none ∨ rs2 = none) :
    execCore (.sub c o rd rs1 rs2 imm) k = k.advance := by
  rcases h with rfl | rfl | rfl
  · rfl
  · cases rd <;> rfl
  · cases rd <;> cases rs1 <;> rfl

end

/-- Settles O7: the write of the sum, or the default increment alone. -/
theorem addWritesSum : Obligations.AddWritesSum := by
  refine ⟨fun c o d a b imm s k hk => ?summed, fun c o rd rs1 rs2 imm s k hk habsent => ?absent,
    transcribeLine_three_registers (op := .add) fun _ => rfl⟩
  case summed =>
    refine exec_meets (.add c o (some d) (some a) (some b) imm) hk ?_
    rw [execCore_add_some]
    refine ⟨?_, fun q hq => ?_, rfl⟩
    · rw [CoreState.advance_readReg, CoreState.readReg_writeReg_self, BitVec.toNat_add]
    · rw [CoreState.advance_readReg, CoreState.readReg_writeReg_of_ne _ _ hq]
  case absent =>
    refine exec_meets (.add c o rd rs1 rs2 imm) hk ?_
    rw [execCore_add_absent habsent]
    exact ⟨k.advance_readReg, k.advance_pc⟩

/-! ## SUB -/

/-- Settles O8: the write of the difference, or the default increment alone. -/
theorem subWritesDifference : Obligations.SubWritesDifference := by
  refine ⟨fun c o d a b imm s k hk => ?subtracted, fun c o rd rs1 rs2 imm s k hk habsent => ?absent,
    transcribeLine_three_registers (op := .sub) fun _ => rfl⟩
  case subtracted =>
    refine exec_meets (.sub c o (some d) (some a) (some b) imm) hk ?_
    rw [execCore_sub_some]
    refine ⟨?_, fun q hq => ?_, rfl⟩
    · rw [CoreState.advance_readReg, CoreState.readReg_writeReg_self, BitVec.toInt_sub]
    · rw [CoreState.advance_readReg, CoreState.readReg_writeReg_of_ne _ _ hq]
  case absent =>
    refine exec_meets (.sub c o rd rs1 rs2 imm) hk ?_
    rw [execCore_sub_absent habsent]
    exact ⟨k.advance_readReg, k.advance_pc⟩

/-! ## UNKNOWN -/

/-- Settles O10: the default increment, and what is neither a known opcode's token nor its variant is read as UNKNOWN.
-/
theorem unknownOnlyAdvancesPc : Obligations.UnknownOnlyAdvancesPc := by
  refine ⟨fun c o rd rs1 rs2 imm s k hk => ?advances,
    fun z d n c o a rs1 rs2 imm hd hp hsource => hazardUnit_of_producer n hd hp rfl hsource, fun lat => rfl,
    fun t0 operands hlength hother => ?decodes⟩
  case advances =>
    refine exec_meets (.unknown c o rd rs1 rs2 imm) hk ?_
    rw [execCore_unknown]
    exact ⟨k.advance_readReg, k.advance_pc⟩
  case decodes =>
    have hvariant : caseVariantOf t0 = none := caseVariantOf_eq_none fun op hop => (hother op hop).2
    have hop : opcodeOf t0 = .unknown := opcodeOf_eq_unknown.2 fun op hop => (hother op hop).1
    simp [templateOfTokens, hvariant, hop, Nat.not_lt.2 hlength, templateOf, immToken, parseImm]

end Sys2Proof.Machine
end

