-- ==== Sys2Proof/Proofs/OperandTokens.lean ====
section
/-! Operand tokens (30_encoding.md R74 to R76): the parsers against digits whose value is given apart from them, and
the shape of every transcribed template. -/

namespace Sys2Proof

/-! ## Digits -/

/-- The value of a digit character, whatever the base. -/
def digitValue (c : Char) : Option Nat :=
  if 48 ≤ c.toNat ∧ c.toNat ≤ 57 then some (c.toNat - 48)
  else if 97 ≤ c.toNat ∧ c.toNat ≤ 102 then some (c.toNat - 87)
  else if 65 ≤ c.toNat ∧ c.toNat ≤ 70 then some (c.toNat - 55)
  else none

theorem digitOf_eq_some_iff {base : Nat} {c : Char} {d : Nat} :
    digitOf base c = some d ↔ digitValue c = some d ∧ d < base := by
  have htied : digitOf base c = (digitValue c).filter fun v => decide (v < base) := rfl
  rw [htied, Option.filter_eq_some_iff, decide_eq_true_iff]

/-- A character with a value is the digit of that value in one of the two rows of digits. -/
theorem digitValue_eq_some_iff {c : Char} {d : Nat} :
    digitValue c = some d ↔ smallDigits[d]? = some c ∨ capitalDigits[d]? = some c := by
  constructor
  · intro h
    have decimalDigit : ∀ d < 10, smallDigits[d]? = some (Char.ofNat (d + 48)) := by decide
    have smallLetter : ∀ d < 16, 10 ≤ d → smallDigits[d]? = some (Char.ofNat (d + 87)) := by decide
    have capitalLetter : ∀ d < 16, 10 ≤ d → capitalDigits[d]? = some (Char.ofNat (d + 55)) := by decide
    have hchar (n : Nat) (hn : c.toNat = n) : Char.ofNat n = c := hn ▸ Char.ofNat_toNat c
    unfold digitValue at h
    split_ifs at h with hdecimal hsmall hcapital <;> obtain rfl := Option.some.inj h
    · exact .inl (by rw [decimalDigit _ (by omega), hchar _ (by omega)])
    · exact .inl (by rw [smallLetter _ (by omega) (by omega), hchar _ (by omega)])
    · exact .inr (by rw [capitalLetter _ (by omega) (by omega), hchar _ (by omega)])
  · have rows : ∀ d < 16, smallDigits[d]?.bind digitValue = some d ∧ capitalDigits[d]?.bind digitValue = some d := by
      decide
    intro h
    have hd : d < 16 := by
      rcases h with h | h <;> exact (List.getElem?_eq_some_iff.1 h).1
    obtain ⟨hsmall, hcapital⟩ := rows d hd
    rcases h with h | h
    · simpa [h] using hsmall
    · simpa [h] using hcapital

/-- What stands in neither row below the base is no digit of it. -/
theorem digitOf_eq_none {base : Nat} {c : Char} (hsmall : c ∉ smallDigits.take base)
    (hcapital : c ∉ capitalDigits.take base) : digitOf base c = none := by
  refine Option.eq_none_iff_forall_ne_some.2 fun d hd => ?_
  obtain ⟨hvalue, hbase⟩ := digitOf_eq_some_iff.1 hd
  rcases digitValue_eq_some_iff.1 hvalue with h | h
  · exact hsmall (List.mem_of_getElem? (i := d) (by rw [List.getElem?_take_of_lt hbase, h]))
  · exact hcapital (List.mem_of_getElem? (i := d) (by rw [List.getElem?_take_of_lt hbase, h]))

/-! ## Digit strings -/

theorem digitsFrom_eq_none {base acc : Nat} {c : Char} {cs : List Char} (hmem : c ∈ cs) (hc : digitOf base c = none) :
    digitsFrom base acc cs = none := by
  induction cs generalizing acc with
  | nil => cases hmem
  | cons a cs ih =>
    rw [digitsFrom]
    rcases List.mem_cons.1 hmem with rfl | hmem
    · rw [hc, Option.bind_none]
    · cases digitOf base a with
      | none => rfl
      | some d => exact ih hmem

theorem digits_eq_none_of_mem {base : Nat} {c : Char} {cs : List Char} (hmem : c ∈ cs) (hc : digitOf base c = none) :
    digits base cs = none := by
  cases cs with
  | nil => rfl
  | cons a cs => exact digitsFrom_eq_none hmem hc

theorem digits_of_noDigits {base : Nat} {cs : List Char} (h : NoDigits base cs) : digits base cs = none := by
  rcases h with rfl | ⟨c, hmem, hsmall, hcapital⟩
  · rfl
  · exact digits_eq_none_of_mem hmem (digitOf_eq_none hsmall hcapital)

/-- Horner's rule: the digits read from the left on top of a value, against the sum of their powers. -/
theorem digitsFrom_of_rows {base acc : Nat} {cs : List Char} {ds : List Nat} (hbase : ∀ d ∈ ds, d < base)
    (hrows : List.Forall₂ (fun c d => smallDigits[d]? = some c ∨ capitalDigits[d]? = some c) cs ds) :
    digitsFrom base acc cs = some (acc * base ^ ds.length + Nat.ofDigits base ds.reverse) := by
  induction hrows generalizing acc with
  | nil => simp [digitsFrom]
  | @cons c d cs ds hrow _ ih =>
    have hdigit : digitOf base c = some d :=
      digitOf_eq_some_iff.2 ⟨digitValue_eq_some_iff.2 hrow, hbase d List.mem_cons_self⟩
    rw [digitsFrom, hdigit, Option.bind_some, ih fun e he => hbase e (List.mem_cons_of_mem d he), List.reverse_cons,
      Nat.ofDigits_append, Nat.ofDigits_singleton, List.length_reverse, List.length_cons, Option.some_inj]
    ring

/-- A spelling parses to what it spells. -/
theorem digits_of_spells {base : Nat} {cs : List Char} {n : Nat} (h : Spells base cs n) : digits base cs = some n := by
  obtain ⟨ds, hne, hbase, rfl, hrows⟩ := h
  have hfrom := digitsFrom_of_rows (acc := 0) hbase hrows
  rw [Nat.zero_mul, Nat.zero_add] at hfrom
  cases hrows with
  | nil => exact absurd rfl hne
  | cons => exact hfrom

/-- Leading zeros add nothing. -/
theorem digits_leading_zeros (n : Nat) {fuel m : Nat} (h : m < 10 ^ (fuel + 1)) :
    digits 10 (List.replicate n '0' ++ decimal fuel m) = some m := by
  have hzeros : digitsFrom 10 0 (List.replicate n '0') = some 0 := by
    induction n with
    | zero => rfl
    | succ n ih => exact ih
  have hne : List.replicate n '0' ++ decimal fuel m ≠ [] := by simp [decimal_ne_nil]
  rw [digits, if_neg (by simpa using hne), digitsFrom_append, hzeros, Option.bind_some, digitsFrom_decimal h]

/-! ## Register tokens -/

theorem parseReg_x (ds : List Char) : parseReg (some ('x' :: ds)) = (digits 10 ds).bind regIxOf := by
  simp [parseReg]

theorem parseReg_of_ne_x {c : Char} (h : c ≠ 'x') (ds : List Char) : parseReg (some (c :: ds)) = none := by
  simp [parseReg, h]

theorem regIxOf_val (r : RegIx) : regIxOf r.val = some r := by
  simp [regIxOf]

theorem regIxOf_of_le {v : Nat} (h : 32 ≤ v) : regIxOf v = none := by
  simp [regIxOf, Nat.not_lt.2 h]

/-- Settles O19: behind an `x` the digits decide, and nothing else is a register. -/
theorem registerTokenParsing : Obligations.RegisterTokenParsing := by
  have hdigits {ds : List Char} {v : Nat} (hv : digits 10 ds = some v) : parseReg (some ('x' :: ds)) = regIxOf v := by
    rw [parseReg_x, hv, Option.bind_some]
  refine ⟨fun n r => ?_, fun ds v hv h => ?_, fun ds v hv => ⟨?_, fun h => ?_⟩, fun ds hds => ?_,
    fun c ds hc => parseReg_of_ne_x hc ds, rfl, rfl, rfl⟩
  · rw [hdigits (digits_leading_zeros n (by omega)), regIxOf_val]
  · rw [hdigits hv, regIxOf_of_le h]
  · rintro r rfl
    rw [hdigits (digits_of_spells hv), regIxOf_val]
  · rw [hdigits (digits_of_spells hv), regIxOf_of_le h]
  · rw [parseReg_x, digits_of_noDigits hds, Option.bind_none]

/-! ## Immediate tokens -/

theorem parseImm_of_number {t : List Char} {v : Int} (h : parseNumber t = some v) :
    parseImm (some t) =
      if -2147483648 ≤ v ∧ v ≤ 2147483647 then .ok (BitVec.ofInt 32 v) else .error (.immOutOfRange v) := by
  simp [parseImm, h]

theorem parseImm_of_no_number {t : List Char} (h : parseNumber t = none) : parseImm (some t) = .ok 0 := by
  simp [parseImm, h]

/-- A number that is not negative is below the range never. -/
theorem parseImm_of_nat {t : List Char} {v : Nat} (h : parseNumber t = some (v : Int)) :
    parseImm (some t) = if v ≤ 2147483647 then .ok (BitVec.ofNat 32 v) else .error (.immOutOfRange v) := by
  have hrange : (-2147483648 ≤ (v : Int) ∧ (v : Int) ≤ 2147483647) ↔ v ≤ 2147483647 := by omega
  rw [parseImm_of_number h, BitVec.ofInt_natCast]
  exact if_congr hrange rfl rfl

/-- A number that is not positive is above the range never. -/
theorem parseImm_of_neg {t : List Char} {v : Nat} (h : parseNumber t = some (-(v : Int))) :
    parseImm (some t) =
      if v ≤ 2147483648 then .ok (BitVec.ofInt 32 (-(v : Int))) else .error (.immOutOfRange (-(v : Int))) := by
  have hrange : (-2147483648 ≤ -(v : Int) ∧ -(v : Int) ≤ 2147483647) ↔ v ≤ 2147483648 := by omega
  rw [parseImm_of_number h]
  exact if_congr hrange rfl rfl

theorem parseNumber_hexadecimal {x : Char} (h : x = 'x' ∨ x = 'X') (ds : List Char) :
    parseNumber ('0' :: x :: ds) = (digits 16 ds).map fun v : Nat => (v : Int) := by
  simp [parseNumber, h, Option.map_eq_bind]

theorem parseNumber_binary {x : Char} (h : x = 'b' ∨ x = 'B') (ds : List Char) :
    parseNumber ('0' :: x :: ds) = (digits 2 ds).map fun v : Nat => (v : Int) := by
  have hx : ¬ (x = 'x' ∨ x = 'X') := by rcases h with rfl | rfl <;> decide
  simp [parseNumber, h, hx, Option.map_eq_bind]

/-- A token that does not begin with `0` and the letter of a base is read as signed decimal. -/
theorem parseNumber_decimal {a : Char} {cs : List Char}
    (h : ∀ x ∈ cs.head?, a = '0' → x ≠ 'x' ∧ x ≠ 'X' ∧ x ≠ 'b' ∧ x ≠ 'B') :
    parseNumber (a :: cs) = parseSigned (a :: cs) := by
  cases cs with
  | nil => rfl
  | cons b cs =>
    have hletter : a = '0' → ¬ (b = 'x' ∨ b = 'X') ∧ ¬ (b = 'b' ∨ b = 'B') := fun ha => by
      obtain ⟨hx, hX, hb, hB⟩ := h b rfl ha
      exact ⟨not_or.2 ⟨hx, hX⟩, not_or.2 ⟨hb, hB⟩⟩
    rw [parseNumber, if_neg fun h0 => (hletter h0.1).1 h0.2, if_neg fun h0 => (hletter h0.1).2 h0.2]

theorem parseNumber_minus (ds : List Char) : parseNumber ('-' :: ds) = (digits 10 ds).map fun v : Nat => -(v : Int) := by
  rw [parseNumber_decimal fun x _ h => absurd h (by decide)]
  cases h : digits 10 ds <;> simp [parseSigned, h]

theorem parseNumber_plus (ds : List Char) : parseNumber ('+' :: ds) = (digits 10 ds).map fun v : Nat => (v : Int) := by
  rw [parseNumber_decimal fun x _ h => absurd h (by decide)]
  simp [parseSigned, Option.map_eq_bind]

theorem parseNumber_unsigned {a : Char} {cs : List Char} (hplus : a ≠ '+') (hminus : a ≠ '-')
    (h : ∀ x ∈ cs.head?, a = '0' → x ≠ 'x' ∧ x ≠ 'X' ∧ x ≠ 'b' ∧ x ≠ 'B') :
    parseNumber (a :: cs) = (digits 10 (a :: cs)).map fun v : Nat => (v : Int) := by
  rw [parseNumber_decimal h]
  simp [parseSigned, hplus, hminus, Option.map_eq_bind]

/-- Decimal digits hold neither a sign nor the letter of a base. -/
theorem parseNumber_of_digits {ds : List Char} {v : Nat} (h : digits 10 ds = some v) :
    parseNumber ds = some (v : Int) := by
  have habsent {c : Char} (hc : digitOf 10 c = none) : c ∉ ds := fun hmem => by
    simp [digits_eq_none_of_mem hmem hc] at h
  cases ds with
  | nil => cases h
  | cons a cs =>
    have hfirst {c : Char} (hc : digitOf 10 c = none) : a ≠ c := fun hac => habsent hc (hac ▸ List.mem_cons_self)
    have hrest {c : Char} (hc : digitOf 10 c = none) : ∀ x ∈ cs.head?, x ≠ c := fun x hx hxc =>
      habsent hc (hxc ▸ List.mem_cons_of_mem a (List.mem_of_mem_head? hx))
    rw [parseNumber_unsigned (hfirst (by decide)) (hfirst (by decide)) fun x hx _ =>
      ⟨hrest (by decide) x hx, hrest (by decide) x hx, hrest (by decide) x hx, hrest (by decide) x hx⟩, h, Option.map_some]

/-- Settles O20: the number by its form, then the range of a word. -/
theorem immediateParsing : Obligations.ImmediateParsing := by
  refine ⟨parseImm_immSpelling, fun n m _ hm => ?negative, fun ds v x hx => ?based, fun ds v hv => ⟨?bare, ?plus, ?minus⟩,
    fun ds x hx => ?notBased, fun sign ds hsign hds => ?notSigned, fun a cs hplus hminus hhead hds => ?notDecimal,
    fun t => parseImm_of_no_number, rfl⟩
  case negative =>
    have hdigits : digits 10 (List.replicate n '0' ++ decimal 9 m) = some m := digits_leading_zeros n (by omega)
    rw [parseImm_of_neg (v := m) (by rw [parseNumber_minus, hdigits, Option.map_some]), if_pos hm]
  case based =>
    refine parseImm_of_nat ?_
    rcases hx with ⟨hx, hds⟩ | ⟨hx, hds⟩
    · rw [parseNumber_hexadecimal hx, digits_of_spells hds, Option.map_some]
    · rw [parseNumber_binary hx, digits_of_spells hds, Option.map_some]
  case bare => exact parseImm_of_nat (parseNumber_of_digits (digits_of_spells hv))
  case plus => exact parseImm_of_nat (by rw [parseNumber_plus, digits_of_spells hv, Option.map_some])
  case minus => exact parseImm_of_neg (by rw [parseNumber_minus, digits_of_spells hv, Option.map_some])
  case notBased =>
    refine parseImm_of_no_number ?_
    rcases hx with ⟨hx, hds⟩ | ⟨hx, hds⟩
    · rw [parseNumber_hexadecimal hx, digits_of_noDigits hds, Option.map_none]
    · rw [parseNumber_binary hx, digits_of_noDigits hds, Option.map_none]
  case notSigned =>
    refine parseImm_of_no_number ?_
    rcases hsign with rfl | rfl
    · rw [parseNumber_plus, digits_of_noDigits hds, Option.map_none]
    · rw [parseNumber_minus, digits_of_noDigits hds, Option.map_none]
  case notDecimal =>
    exact parseImm_of_no_number (by rw [parseNumber_unsigned hplus hminus hhead, digits_of_noDigits hds, Option.map_none])

/-! ## Templates -/

/-- A token that begins with `x` is no number. -/
theorem parseImm_x (ds : List Char) : parseImm (some ('x' :: ds)) = .ok 0 := by
  refine parseImm_of_no_number ?_
  rw [parseNumber_unsigned (by decide) (by decide) fun x _ h => absurd h (by decide),
    digits_eq_none_of_mem List.mem_cons_self (by decide), Option.map_none]

/-- A token is a register or a number, never both (R75). -/
theorem parseReg_eq_none_or_imm_zero {o : Option (List Char)} {v : Word} (h : parseImm o = .ok v) :
    parseReg o = none ∨ v = 0 := by
  match o with
  | none => exact .inl rfl
  | some [] => exact .inl rfl
  | some (c :: ds) =>
    by_cases hc : c = 'x'
    · rw [hc, parseImm_x] at h
      exact .inr (Except.ok.inj h).symm
    · exact .inl (parseReg_of_ne_x hc ds)

theorem templateOf_eq_ok {op : Opcode} {operands : List (List Char)} {t : Template} (h : templateOf op operands = .ok t) :
    ∃ v, parseImm (immToken op operands) = .ok v ∧
      t = { opcode := op, rd := parseReg operands[0]?, rs1 := parseReg operands[1]?, rs2 := parseReg operands[2]?,
            imm := v } := by
  unfold templateOf at h
  split at h
  · cases h
  · rename_i v hv
    exact ⟨v, hv, (Except.ok.inj h).symm⟩

theorem templateOf_textual {op : Opcode} {operands : List (List Char)} {t : Template} (h : templateOf op operands = .ok t) :
    t.Textual := by
  obtain ⟨v, hv, rfl⟩ := templateOf_eq_ok h
  refine ⟨?_, ?_, fun hjal hbne => ?_⟩
  · rintro rfl
    exact parseReg_eq_none_or_imm_zero hv
  · rintro rfl
    exact parseReg_eq_none_or_imm_zero hv
  · have hnone : immToken op operands = none := by
      cases op with
      | jal => exact absurd rfl hjal
      | bne => exact absurd rfl hbne
      | add | sub | swap | unknown => rfl
    rw [hnone] at hv
    exact (Except.ok.inj hv).symm

theorem templateOfTokens_textual {ts : List (List Char)} {t : Template} (h : templateOfTokens ts = .ok t) : t.Textual := by
  cases ts with
  | nil =>
    have hunknown : templateOf .unknown [] = .ok t := h
    exact templateOf_textual hunknown
  | cons t0 operands =>
    simp only [templateOfTokens] at h
    split at h
    · cases h
    · split at h
      · cases h
      · exact templateOf_textual h

/-- Settles O18: an accepted line is the template of its tokens. -/
theorem transcribedTemplatesAreTextual : Obligations.TranscribedTemplatesAreTextual := by
  intro line t h
  unfold transcribeLine at h
  split at h
  · cases h
  · split at h
    · cases h
    · exact templateOfTokens_textual h

end Sys2Proof
end

