-- ==== Sys2Proof/Proofs/ProgramText.lean ====
section
/-! Lines and programs (30_encoding.md R71, R73, R76 to R80): what the transcriber refuses, a line of white space, the
canonical line of a template read back, and a text as its non-empty lines. -/

namespace Sys2Proof

/-! ## Refusals -/

theorem templateOfTokens_tooMany {ts : List (List Char)} (h : 4 < ts.length) :
    templateOfTokens ts = .error (.tooManyTokens ts.length) := by
  cases ts with
  | nil => simp at h
  | cons t0 operands =>
    have hmany : 3 < operands.length := Nat.lt_of_succ_lt_succ h
    simp [templateOfTokens, hmany]

theorem templateOfTokens_caseVariant {op : Opcode} {t0 : List Char} {operands : List (List Char)} (hop : op ≠ .unknown)
    (hlength : operands.length ≤ 3) (hne : t0 ≠ opcodeToken op) (hupper : t0.map upperChar = opcodeToken op) :
    templateOfTokens (t0 :: operands) = .error (.caseVariant op) := by
  simp [templateOfTokens, Nat.not_lt.2 hlength, caseVariantOf_eq_some hop hne hupper]

/-- Settles O21: comma, then marker, then the tokens. -/
theorem transcriberRefusals : Obligations.TranscriberRefusals := by
  refine ⟨fun line hcomma => ?_, fun line hcomma hmarker => ?_, fun ts => templateOfTokens_tooMany,
    fun op t0 operands => templateOfTokens_caseVariant, fun line ts hcomma hmarker hspaced => ?_⟩
  · simp [transcribeLine, hcomma]
  · simp [transcribeLine, hcomma, hasCommentMarker_eq_true.2 hmarker]
  · have hline := transcribeLine_of_spaced hcomma hmarker hspaced
    refine ⟨hline, fun hmany => ?_, ?_⟩
    · rw [hline, templateOfTokens_tooMany hmany]
    · rintro op t0 operands rfl hop hlength hne hupper
      rw [hline, templateOfTokens_caseVariant hop hlength hne hupper]

/-! ## A line of white space -/

/-- Settles O52: white space holds no comma and no marker, and is no token. -/
theorem whiteSpaceLineIsUnknown : Obligations.WhiteSpaceLineIsUnknown := by
  intro line _ hspace
  have habsent {c : Char} (hc : isSpace c = false) : c ∉ line := fun hmem => by simp [hspace c hmem] at hc
  have hmarker : ¬ HoldsMarker line := by
    rintro (hhash | hsemi | hslashes)
    · exact habsent (by decide) hhash
    · exact habsent (by decide) hsemi
    · exact habsent (c := '/') (by decide) (hslashes.subset List.mem_cons_self)
  rw [transcribeLine_of_spaced (ts := []) (habsent (by decide)) hmarker hspace]
  rfl

/-! ## The canonical line -/

/-- The spelled operands answer a parser as the operands do, missing ones included, when the parser takes `-` for a
missing token. -/
theorem parse_spellOperands {α : Type} {parse : Option (List Char) → α} (hdash : parse (some ['-']) = parse none)
    (os : List (Option (List Char))) (n : Nat) : parse (spellOperands os)[n]? = parse (os[n]?).join := by
  induction os generalizing n with
  | nil => rfl
  | cons o os ih =>
    cases o with
    | some w =>
      cases n with
      | zero => rfl
      | succ n => simpa [spellOperands] using ih n
    | none =>
      cases hrest : spellOperands os with
      | nil =>
        cases n with
        | zero => simp [spellOperands, hrest]
        | succ n => simpa [spellOperands, hrest] using ih n
      | cons t ts =>
        cases n with
        | zero => simpa [spellOperands, hrest] using hdash
        | succ n => simpa [spellOperands, hrest] using ih n

theorem length_spellOperands_le (os : List (Option (List Char))) : (spellOperands os).length ≤ os.length := by
  induction os with
  | nil => rfl
  | cons o os ih =>
    cases o with
    | some w => simpa [spellOperands] using ih
    | none => cases hrest : spellOperands os <;> simp_all [spellOperands]

theorem mem_spellOperands {os : List (Option (List Char))} {t : List Char} (h : t ∈ spellOperands os) :
    t = ['-'] ∨ some t ∈ os := by
  induction os with
  | nil => cases h
  | cons o os ih =>
    cases o with
    | some w =>
      simp only [spellOperands, List.mem_cons] at h ⊢
      rcases h with rfl | h
      · exact .inr (.inl rfl)
      · exact (ih h).imp_right .inr
    | none =>
      cases hrest : spellOperands os with
      | nil => simp [spellOperands, hrest] at h
      | cons u us =>
        rw [hrest] at ih
        simp only [spellOperands, hrest] at h
        rcases List.mem_cons.1 h with rfl | h
        · exact .inl rfl
        · exact (ih h).imp_right (List.mem_cons_of_mem none)

theorem parseReg_map_regToken (r : RegField) : parseReg (r.map regToken) = r := by
  cases r with
  | none => rfl
  | some r => exact parseReg_regToken r

/-- The token a JAL or a BNE shares between a register and its immediate (R76). -/
def sharedToken (r : RegField) (v : Word) : List Char := (r.map regToken).getD (immSpelling v)

theorem parseReg_sharedToken (r : RegField) (v : Word) : parseReg (some (sharedToken r v)) = r := by
  cases r with
  | none => exact parseReg_immSpelling v
  | some r => exact parseReg_regToken r

theorem parseImm_sharedToken {r : RegField} {v : Word} (h : r = none ∨ v = 0) :
    parseImm (some (sharedToken r v)) = .ok v := by
  cases r with
  | none => exact parseImm_immSpelling v
  | some r =>
    rw [h.resolve_left (by simp)]
    exact parseImm_x (decimal 1 r.val)

theorem operandTokens_jal {t : Template} (h : t.opcode = .jal) :
    operandTokens t = [t.rd.map regToken, some (sharedToken t.rs1 t.imm), t.rs2.map regToken] := by
  simp [operandTokens, h, sharedToken]

theorem operandTokens_bne {t : Template} (h : t.opcode = .bne) :
    operandTokens t = [t.rd.map regToken, t.rs1.map regToken, some (sharedToken t.rs2 t.imm)] := by
  simp [operandTokens, h, sharedToken]

theorem operandTokens_of_no_imm {t : Template} (hjal : t.opcode ≠ .jal) (hbne : t.opcode ≠ .bne) :
    operandTokens t = [t.rd.map regToken, t.rs1.map regToken, t.rs2.map regToken] := by
  unfold operandTokens
  split
  · rename_i h; exact absurd h hjal
  · rename_i h; exact absurd h hbne
  · rfl

/-- The operand tokens of a template, whichever of them is the shared one, spell its register fields. -/
theorem parseReg_operandTokens (t : Template) :
    (operandTokens t).length = 3 ∧ parseReg ((operandTokens t)[0]?).join = t.rd ∧
      parseReg ((operandTokens t)[1]?).join = t.rs1 ∧ parseReg ((operandTokens t)[2]?).join = t.rs2 := by
  by_cases hjal : t.opcode = .jal
  · rw [operandTokens_jal hjal]
    exact ⟨rfl, parseReg_map_regToken _, parseReg_sharedToken _ _, parseReg_map_regToken _⟩
  · by_cases hbne : t.opcode = .bne
    · rw [operandTokens_bne hbne]
      exact ⟨rfl, parseReg_map_regToken _, parseReg_map_regToken _, parseReg_sharedToken _ _⟩
    · rw [operandTokens_of_no_imm hjal hbne]
      exact ⟨rfl, parseReg_map_regToken _, parseReg_map_regToken _, parseReg_map_regToken _⟩

/-- The immediate of a textual template is read from its spelled operands. -/
theorem parseImm_immToken {t : Template} (h : t.Textual) :
    parseImm (immToken t.opcode (spellOperands (operandTokens t))) = .ok t.imm := by
  obtain ⟨hjal, hbne, hother⟩ := h
  cases hop : t.opcode with
  | jal =>
    rw [immToken, parse_spellOperands (parse := parseImm) (by rfl), operandTokens_jal hop]
    exact parseImm_sharedToken (hjal hop)
  | bne =>
    rw [immToken, parse_spellOperands (parse := parseImm) (by rfl), operandTokens_bne hop]
    exact parseImm_sharedToken (hbne hop)
  | add | sub | swap | unknown =>
    rw [hother (by simp [hop]) (by simp [hop])]
    rfl

theorem operandTokens_plain {t : Template} {w : List Char} (h : some w ∈ operandTokens t) : PlainToken w := by
  have hreg {r : RegField} (hr : some w = r.map regToken) : PlainToken w := by
    obtain ⟨r, -, rfl⟩ := Option.map_eq_some_iff.1 hr.symm
    exact regToken_plain r
  have hshared {r : RegField} {v : Word} (hr : some w = some (sharedToken r v)) : PlainToken w := by
    obtain rfl := Option.some.inj hr
    cases r with
    | none => exact immSpelling_plain v
    | some r => exact regToken_plain r
  by_cases hjal : t.opcode = .jal
  · rw [operandTokens_jal hjal] at h
    simp only [List.mem_cons, List.not_mem_nil, or_false] at h
    exact h.elim hreg (Or.rec hshared hreg)
  · by_cases hbne : t.opcode = .bne
    · rw [operandTokens_bne hbne] at h
      simp only [List.mem_cons, List.not_mem_nil, or_false] at h
      exact h.elim hreg (Or.rec hreg hshared)
    · rw [operandTokens_of_no_imm hjal hbne] at h
      simp only [List.mem_cons, List.not_mem_nil, or_false] at h
      exact h.elim hreg (Or.rec hreg hreg)

theorem spellOperands_plain {t : Template} {w : List Char} (h : w ∈ spellOperands (operandTokens t)) : PlainToken w := by
  rcases mem_spellOperands h with rfl | h
  · exact ⟨List.cons_ne_nil _ _, List.forall_mem_singleton.2 rfl⟩
  · exact operandTokens_plain h

/-- Settles O17: the line is read by its tokens, and each parser reads its field back. -/
theorem programLineRoundTrip : Obligations.ProgramLineRoundTrip := by
  intro t h
  obtain ⟨hlength, hrd, hrs1, hrs2⟩ := parseReg_operandTokens t
  have hspelled := length_spellOperands_le (operandTokens t)
  have hparse := parse_spellOperands (parse := parseReg) (by rfl) (operandTokens t)
  rw [encodeLine, transcribeLine_opcodeToken t.opcode (hlength ▸ hspelled) fun w => spellOperands_plain, templateOf,
    parseImm_immToken h, hparse, hparse, hparse, hrd, hrs1, hrs2]

/-! ## A text of lines -/

/-- The lines of a text are the lines it is joined from. -/
theorem programLines_intercalate {ls : List (List Char)} (h : ∀ l ∈ ls, '\n' ∉ l) :
    programLines (['\n'].intercalate ls) = ls.filter fun l => !l.isEmpty := by
  have huncut {l : List Char} (hl : '\n' ∉ l) : ∀ c ∈ l, (c == '\n') = false := fun c hc =>
    beq_eq_false_iff_ne.2 fun heq => hl (heq ▸ hc)
  unfold programLines
  match ls with
  | [] => rfl
  | [l] =>
    have hl : '\n' ∉ l := h l List.mem_cons_self
    rw [List.intercalate_singleton, cutAt_uncut (huncut hl)]
  | l :: m :: ls =>
    have hl : '\n' ∉ l := h l List.mem_cons_self
    have hrest := programLines_intercalate fun r hr => h r (List.mem_cons_of_mem l hr)
    rw [List.intercalate_cons_cons, List.append_assoc, List.singleton_append, cutAt_first (by rfl) _ (huncut hl),
      List.filter_cons, List.filter_cons (x := l)]
    unfold programLines at hrest
    rw [hrest]

theorem encodeLine_ne_nil (t : Template) : encodeLine t ≠ [] := by
  unfold encodeLine
  cases spellOperands (operandTokens t) with
  | nil => exact (opcodeToken_plain t.opcode).ne_nil
  | cons w ws => rw [joinTokens_cons_cons]; simp

theorem newline_not_mem_encodeLine (t : Template) : '\n' ∉ encodeLine t := by
  intro h
  have hline {w : List Char} (hw : PlainToken w) : '\n' ∉ w := fun hmem => absurd (hw.plain _ hmem) (by decide)
  rcases mem_joinTokens h with hblank | ⟨w, hw, hmem⟩
  · exact absurd hblank (by decide)
  · rcases List.mem_cons.1 hw with rfl | hw
    · exact hline (opcodeToken_plain t.opcode) hmem
    · exact hline (spellOperands_plain hw) hmem

/-- Settles O51: the lines of the text, transcribed one by one. -/
theorem programTextEntries : Obligations.ProgramTextEntries := by
  refine ⟨fun ls hls => ⟨fun prog => ?_, fun e he => ?_⟩, fun ts hts => ?_⟩
  · rw [transcribe, programLines_intercalate hls, transcribeLines_eq_ok]
  · rw [transcribe, programLines_intercalate hls] at he
    obtain ⟨l, hl, hrefused⟩ := transcribeLines_eq_error he
    obtain ⟨hmem, hne⟩ := List.mem_filter.1 hl
    exact ⟨l, hmem, by simpa using hne, hrefused⟩
  · have hlines : ∀ l ∈ ts.map encodeLine, '\n' ∉ l := by
      simpa using fun t _ => newline_not_mem_encodeLine t
    have hkept : ((ts.map encodeLine).filter fun l => !l.isEmpty) = ts.map encodeLine := by
      refine List.filter_eq_self.2 ?_
      simpa using fun t _ => encodeLine_ne_nil t
    rw [transcribe, programLines_intercalate hlines, hkept, transcribeLines_eq_ok, List.map_map]
    exact List.map_congr_left fun t ht => programLineRoundTrip t (hts t ht)

end Sys2Proof
end
